-- ==== Sys2Proof/Word.lean ====
section
/-! DEFINITION. The words of the block: the byte of every sequence, the scalar operand, the character code. -/

namespace Sys2Proof

/-- An element of a sequence, `u8` (R11): the only addressable size of the input and output spaces (R40). -/
abbrev Byte := BitVec 8

/-- The first scalar operand, `VALUE_W` = 32 bits (R9, R21). -/
abbrev Value := BitVec 32

/-- One character code of a firmware name, 9 bits (R22, R200). -/
abbrev CharCode := BitVec 9

end Sys2Proof
end

