-- ==== Sys2Proof/Config.lean ====
section
/-! DEFINITION. What an implementation fixes: the build parameters of R9 and the wired constants of R23. -/

namespace Sys2Proof.Config

/-- The frame start marker (R9, R23). -/
abbrev startMarker : Byte := 0xF0#8

/-- The frame end marker (R9, R23). -/
abbrev endMarker : Byte := 0xF7#8

/-- The unit limit (R23): a payload byte is below it. -/
abbrev unitLimit : Nat := 0x80

/-- The UART feature selector, the first payload byte of every UART command frame (R9, R151). -/
abbrev selUart : Byte := 0x60#8

/-- The sub-command code of INIT (R9, R151). -/
abbrev codeInit : Byte := 0x10#8

/-- The sub-command code of WRITE (R9, R151). -/
abbrev codeWrite : Byte := 0x20#8

/-- The sub-command code of READ_ARM (R9, R151). -/
abbrev codeReadArm : Byte := 0x30#8

/-- The sub-command code of FLUSH (R9, R151). -/
abbrev codeFlush : Byte := 0x60#8

/-- The port limit (R23): a port is below it. -/
abbrev portLimit : Nat := 0x10

/-- The read-length limit (R23, R153): a read length is below it. -/
abbrev readLimit : Nat := 0x4000

/-- The literal that BUILD_ARM_READ emits as its second payload byte (R23, R153). -/
abbrev armReadLiteral : Byte := 0x00#8

/-- The data-area offset of EXTRACT_REPLAY, counted from the start marker (R23, R181). -/
abbrev dataOffset : Nat := 3

/-- The build parameters of R9 that the spec lets vary. They are fixed when the block is built (R26): every
statement over all states is a statement over all their values, and no operation writes them. -/
structure Params where
  /-- `HAS_HSP`: whether the optional HandshakeParser unit is present (R9, R80). -/
  hasHsp : Bool
  /-- `MAX_LEN`, OPEN in R9: the greatest length of an input sequence, `none` for no bound. -/
  maxLen : Option Nat
  deriving DecidableEq, Repr

end Sys2Proof.Config
end

