-- ==== Sys2Proof/Syntax.lean ====
section
/-! DEFINITION. What is presented to the block: the request ports, the channel they are read through, and one
constructor of `Instr` for every row of spec/opcode_table.json. -/

namespace Sys2Proof

/-- The request ports of R21. `IN_LEN` is the length of `inp`, not a second field (log 10). -/
structure Request where
  /-- `OP`, the operation select (R67). -/
  op : BitVec 4
  /-- `A`, the first scalar operand. -/
  a : Value
  /-- `B`, the second scalar operand. -/
  b : Byte
  /-- `C`, the third scalar operand. -/
  c : Byte
  /-- `IN`, the input byte sequence (R28, R40). -/
  inp : List Byte
  /-- `IN_VALID`: whether the message is present; read by EXTRACT_NAME and EXTRACT_VERSION only. -/
  inValid : Bool
  deriving DecidableEq, Repr

/-- The HandshakeParser has two operations on a message and no operation that returns it whole (R202), so a message on the
wire is read by one of them in one transaction: EXTRACT_VERSION (R201), or EXTRACT_NAME from a start index the caller gives
(R76, R200). DESIGN CHOICE, log 8. -/
inductive HandshakeReading where
  | version
  | name (startIndex : Value)
  deriving DecidableEq, Repr

/-- Which of the two encoding spaces of R65 the inputs are read in: `request` reads the request ports; the other
three read the bytes at `IN` as a message of the wire space, by the unit R6 names as the reader of the bytes a
transport supplies; the parser's channel says which of its two operations reads. On a wire channel the bytes at `IN` are the
message whatever `IN_VALID` holds. DESIGN CHOICE, logs 6, 8 and 20. -/
inductive Channel where
  | request
  | sysexFramer
  | replayExtractor
  | handshakeParser (reading : HandshakeReading)
  deriving DecidableEq, Repr

/-- The four sub-command codes of a UART command frame (R70, R151). -/
inductive SubCode where
  | init
  | write
  | readArm
  | flush
  deriving DecidableEq, Repr

/-- One constructor per row of spec/opcode_table.json: the sixteen operations of R67 in the order of their select
codes, then the eight wire encodings of R69 to R76. The
version of a handshake message is its major and its raw minor byte (R76). Operand widths are those of R21 and R67. -/
inductive Instr where
  | extractBits (value : Value) (startBit endBit : Byte)
  | splitByte (b : Byte)
  | splitWord (v : Value) (bitsWidth : Byte)
  | joinPair (low7 high1 : Byte)
  | joinPairWord (low7 high7 : Byte)
  | frame (payload : List Byte)
  | frameWithCode (payload : List Byte) (code : Byte)
  | extractFirst (raw : List Byte)
  | makeCode (code port : Byte)
  | buildInit (port : Byte) (baudRate : Value)
  | buildArmRead (port : Byte) (maxBytes : BitVec 16)
  | buildWrite (port : Byte) (data : List Byte)
  | buildFlush (port : Byte)
  | extractReplay (raw : List Byte)
  | extractName (startIndex : Value) (msg : Option (List Byte))
  | extractVersion (msg : Option (List Byte))
  | wireFrame (payload : List Byte)
  | uartCommand (code : SubCode) (port : BitVec 4) (params : List Byte)
  | uartInit (port : BitVec 4) (baudRate : BitVec 21)
  | uartReadArm (port : BitVec 4) (maxBytes : BitVec 14)
  | uartWrite (port : BitVec 4) (data : List Byte)
  | uartFlush (port : BitVec 4)
  | replayFrame (x1 x2 : Byte) (units : List Byte)
  | handshakeMsg (reading : HandshakeReading) (x0 : Byte) (version : Byte × Byte) (rest : List Byte)
  deriving DecidableEq, Repr

end Sys2Proof
end

