-- ==== Sys2Proof/Machine/Operands.lean ====
section
/-! DEFINITION. Every operand form of R21 and R67: what an operation reads of the request ports. Bits of a port above
the operand's width are ignored (R21). -/

namespace Sys2Proof.Machine

/-- `A[31:0]`: `value`, `v`, `baudRate`, `startIndex`. -/
def operandA32 (q : Request) : Value := q.a

/-- `A[15:0]`: `maxBytes`. -/
def operandA16 (q : Request) : BitVec 16 := q.a.setWidth 16

/-- `A[7:0]`: `b`, `low7`, `code`. -/
def operandA8 (q : Request) : Byte := q.a.setWidth 8

/-- `B[7:0]`: `startBit`, `bitsWidth`, `high1`, `high7`, `port`. -/
def operandB (q : Request) : Byte := q.b

/-- `C[7:0]`: `endBit`. -/
def operandC (q : Request) : Byte := q.c

/-- `IN`, whatever `IN_VALID` holds: `payload`, `raw`, `data` (R21: `IN_VALID` is read only by the two operations on `msg`). -/
def operandIn (q : Request) : List Byte := q.inp

/-- `IN` with `IN_VALID`: `msg`, absent when `IN_VALID` is 0 (R21). -/
def operandMsg (q : Request) : Option (List Byte) := if q.inValid then some q.inp else none

/-- The request ports that hold nothing but zeros: the base on which a request is written. -/
def zeroRequest : Request := { op := 0, a := 0, b := 0, c := 0, inp := [], inValid := false }

end Sys2Proof.Machine
end

