-- ==== Sys2Proof/Machine/Seq.lean ====
section
/-! DEFINITION. The primitives of R12 on values and sequences, and the byte layouts of the wire space, R69 to R79. -/

namespace Sys2Proof.Machine

/-- The `n` bits of `v` from bit `lo` up, `v[lo+n-1 : lo]` (R10): bits above the top of `v` read as 0. -/
def bits (v lo n : Nat) : Nat := (v >>> lo) % 2 ^ n

/-- A byte that may stand in a payload, below 0x80 (R50, R69). -/
def isUnit (b : Byte) : Bool := decide (b.toNat < Config.unitLimit)

/-- Every byte of the sequence is a unit: the 7-bit-clean payload of R69. -/
def unitsOnly (p : List Byte) : Bool := p.all isUnit

/-- `find(s, b, from)` of R12: the least index at or after `from` where `s` holds `b`. -/
def find : List Byte → Byte → Nat → Option Nat
  | [], _, _ => none
  | x :: xs, b, 0 => if x = b then some 0 else (find xs b 0).map (· + 1)
  | _ :: xs, b, k + 1 => (find xs b k).map (· + 1)

/-- `s[i..j)` of R12: the elements at indices `i` to `j - 1`. -/
def slice (s : List Byte) (i j : Nat) : List Byte := (s.take j).drop i

/-- The sub-command code's byte (R151). -/
def subCodeByte : SubCode → Byte
  | .init => Config.codeInit
  | .write => Config.codeWrite
  | .readArm => Config.codeReadArm
  | .flush => Config.codeFlush

/-- The sub-command a high nibble selects (R84), none for a nibble the block does not know (R80). -/
def subCodeOfNibble (n : BitVec 4) : Option SubCode :=
  if n = 1#4 then some .init
  else if n = 2#4 then some .write
  else if n = 3#4 then some .readArm
  else if n = 6#4 then some .flush
  else none

/-- One frame: start marker, payload, end marker (R69). -/
def layFrame (payload : List Byte) : List Byte :=
  Config.startMarker :: (payload ++ [Config.endMarker])

/-- The payload of a UART command frame: selector, port-fused byte `cccc pppp`, parameters (R70, R77). -/
def layUart (code : SubCode) (port : BitVec 4) (params : List Byte) : List Byte :=
  Config.selUart :: (subCodeByte code ||| port.setWidth 8) :: params

/-- A 7-bit group in the low bits of its byte, bit 7 zero (R41, R78). -/
def layGroup (g : BitVec 7) : Byte := g.setWidth 8

/-- The three groups of a 21-bit baud rate, least significant first (R41, R71). -/
def layBaud (baud : BitVec 21) : List Byte :=
  [layGroup (baud.extractLsb' 0 7), layGroup (baud.extractLsb' 7 7), layGroup (baud.extractLsb' 14 7)]

/-- The parameters of READ_ARM: the literal 0, then the two groups of the length, low first (R72). -/
def layReadLength (n : BitVec 14) : List Byte :=
  [Config.armReadLiteral, layGroup (n.extractLsb' 0 7), layGroup (n.extractLsb' 7 7)]

/-- Each byte as its pair `0lllllll 0000000h`, low unit first (R42, R73, R79). -/
def layPairs : List Byte → List Byte
  | [] => []
  | b :: bs => layGroup (b.extractLsb' 0 7) :: (b.extractLsb' 7 1).setWidth 8 :: layPairs bs

/-- The bytes whose pairs these are, none where the units are odd in number or a high unit is not 0 or 1 (R73). -/
def readPairs : List Byte → Option (List Byte)
  | [] => some []
  | [_] => none
  | l :: h :: rest =>
    if h.toNat < 2 then
      (readPairs rest).map ((h.extractLsb' 0 1 ++ l.extractLsb' 0 7 : BitVec 8) :: ·)
    else none

end Sys2Proof.Machine
end

