-- ==== Sys2Proof/Decode.lean ====
section
/-! DEFINITION. The decoder of both encoding spaces of R65, total, rejecting by name, and the encoder written from the
same tables: R67 for requests, R69 to R76 for wire messages. -/

namespace Sys2Proof

open Machine

/-- Why the bytes on a wire channel are no message of a wire row. -/
inductive DecodeError where
  /-- The first byte is not the start marker 0xF0 (R69). -/
  | noStartMarker
  /-- The last byte is not the end marker 0xF7: an incomplete frame (R69). -/
  | noEndMarker
  /-- A byte between the markers is 0x80 or above (R50, R69). -/
  | payloadByteHigh
  /-- An end marker stands before the last byte of a replay frame, so the frame ends earlier (R81). -/
  | endMarkerInside
  /-- Fewer bytes than the encoding's fixed part: 4 for a replay frame (R75), 3 for a handshake message (R76). -/
  | tooShort
  deriving DecidableEq, Repr

/-! ### Request space -/

/-- The operation `OP` selects, with the operands R67 names for it. All sixteen codes are assigned; that 0xE and 0xF are
reserved without HAS_HSP is an outcome of the operation (R80, R225). -/
def decodeRequest (q : Request) : Instr :=
  match q.op.toNat with
  | 0x0 => .extractBits (operandA32 q) (operandB q) (operandC q)
  | 0x1 => .splitByte (operandA8 q)
  | 0x2 => .splitWord (operandA32 q) (operandB q)
  | 0x3 => .joinPair (operandA8 q) (operandB q)
  | 0x4 => .joinPairWord (operandA8 q) (operandB q)
  | 0x5 => .frame (operandIn q)
  | 0x6 => .frameWithCode (operandIn q) (operandA8 q)
  | 0x7 => .extractFirst (operandIn q)
  | 0x8 => .makeCode (operandA8 q) (operandB q)
  | 0x9 => .buildInit (operandB q) (operandA32 q)
  | 0xA => .buildArmRead (operandB q) (operandA16 q)
  | 0xB => .buildWrite (operandB q) (operandIn q)
  | 0xC => .buildFlush (operandB q)
  | 0xD => .extractReplay (operandIn q)
  | 0xE => .extractName (operandA32 q) (operandMsg q)
  | _ => .extractVersion (operandMsg q)

/-! ### Wire space -/

/-- The INIT frame with these parameters, where they are three groups (R71, R84). -/
def uartInitRow (port : BitVec 4) (params : List Byte) : Option Instr :=
  match params with
  | [g0, g1, g2] =>
    some (.uartInit port (g2.extractLsb' 0 7 ++ g1.extractLsb' 0 7 ++ g0.extractLsb' 0 7 : BitVec 21))
  | _ => none

/-- The READ_ARM frame with these parameters, where they are the literal 0 and two groups (R72, R84). -/
def uartReadArmRow (port : BitVec 4) (params : List Byte) : Option Instr :=
  match params with
  | [z, lo, hi] =>
    if z = Config.armReadLiteral then
      some (.uartReadArm port (hi.extractLsb' 0 7 ++ lo.extractLsb' 0 7 : BitVec 14))
    else none
  | _ => none

/-- The WRITE frame with these parameters, where they are pairs (R73, R84). -/
def uartWriteRow (port : BitVec 4) (params : List Byte) : Option Instr := (readPairs params).map (.uartWrite port ·)

/-- The FLUSH frame, where there are no parameters (R74, R84). -/
def uartFlushRow (port : BitVec 4) (params : List Byte) : Option Instr :=
  match params with
  | [] => some (.uartFlush port)
  | _ => none

/-- The sub-command's own row with these parameters, where they are of its shape (R84). -/
def uartRow (code : SubCode) (port : BitVec 4) (params : List Byte) : Option Instr :=
  match code with
  | .init => uartInitRow port params
  | .write => uartWriteRow port params
  | .readArm => uartReadArmRow port params
  | .flush => uartFlushRow port params

/-- The row of a UART command frame: the sub-command's own where its parameters are of that row's shape, else the
general form (R70, R84). -/
def classifyUart (code : SubCode) (port : BitVec 4) (params : List Byte) : Instr :=
  (uartRow code port params).getD (.uartCommand code port params)

/-- The row of a frame with this payload: a UART command frame where R84 says it is one, else a plain frame (R69). -/
def classifyFrame (payload : List Byte) : Instr :=
  match payload with
  | sel :: fused :: params =>
    if sel = Config.selUart then
      match subCodeOfNibble (fused.extractLsb' 4 4) with
      | some code => classifyUart code (fused.extractLsb' 0 4) params
      | none => .wireFrame payload
    else .wireFrame payload
  | _ => .wireFrame payload

/-- What lies between a start marker at the first byte and an end marker at the last (R69). -/
def betweenMarkers (bytes : List Byte) : Except DecodeError (List Byte) :=
  match bytes with
  | [] => .error .noStartMarker
  | first :: rest =>
    if first = Config.startMarker then
      if rest.getLast? = some Config.endMarker then .ok rest.dropLast else .error .noEndMarker
    else .error .noStartMarker

/-- A frame, the whole of the bytes: R69, and R84 for the UART command frames among them. -/
def decodeFrame (bytes : List Byte) : Except DecodeError Instr :=
  match betweenMarkers bytes with
  | .error e => .error e
  | .ok payload => if unitsOnly payload then .ok (classifyFrame payload) else .error .payloadByteHigh

/-- A replay frame, the whole of the bytes (R75): any two bytes, then units, none of them an end marker (R81). -/
def decodeReplay (bytes : List Byte) : Except DecodeError Instr :=
  match betweenMarkers bytes with
  | .error e => .error e
  | .ok body =>
    if body.any (fun b => decide (b = Config.endMarker)) then .error .endMarkerInside
    else
      match body with
      | x1 :: x2 :: units => .ok (.replayFrame x1 x2 units)
      | _ => .error .tooShort

/-- A handshake message as the parser indexes it (R76): no markers, any three bytes or more, read by the operation that the
channel names (log 8). The bytes are the message: `IN_VALID` is not read here. DESIGN CHOICE, log 20. -/
def decodeHandshake (reading : HandshakeReading) (bytes : List Byte) : Except DecodeError Instr :=
  match bytes with
  | x0 :: major :: minorRaw :: rest => .ok (.handshakeMsg reading x0 (major, minorRaw) rest)
  | _ => .error .tooShort

/-- The instruction the inputs present on the channel. -/
def decode (channel : Channel) (q : Request) : Except DecodeError Instr :=
  match channel with
  | .request => .ok (decodeRequest q)
  | .sysexFramer => decodeFrame q.inp
  | .replayExtractor => decodeReplay q.inp
  | .handshakeParser reading => decodeHandshake reading q.inp

/-- The operation that reads the input sequence for the unit of a channel: EXTRACT_FIRST (R132), EXTRACT_REPLAY (R180),
EXTRACT_VERSION (R201) or EXTRACT_NAME (R200). On the request channel it is the operation the request selects. On the parser's
channel the bytes at `IN` are a message that is present, whatever `IN_VALID` holds: `IN_VALID` is read on the request channel
only. DESIGN CHOICE, log 20. -/
def readBy (channel : Channel) (q : Request) : Instr :=
  match channel with
  | .request => decodeRequest q
  | .sysexFramer => .extractFirst q.inp
  | .replayExtractor => .extractReplay q.inp
  | .handshakeParser .version => .extractVersion (some q.inp)
  | .handshakeParser (.name startIndex) => .extractName startIndex (some q.inp)

/-- What the inputs present to the block: the decoded instruction, or, for bytes that are no message of a wire row, the
unit's reading of them all the same: "Wire space, on reading: nothing is illegal" (R80; log 9). -/
def presented (channel : Channel) (q : Request) : Instr :=
  match decode channel q with
  | .ok i => i
  | .error _ => readBy channel q

/-! ### Encoder -/

/-- A request's operands on the ports, every port the operation does not read at zero (R21, R67). -/
def encodeMsg (q : Request) : Option (List Byte) → Request
  | some msg => { q with inp := msg, inValid := true }
  | none => q

/-- The channel and the input ports of an instruction: R67 for an operation (a sequence operand is present, so
`IN_VALID` is 1), the bytes of R69 to R76 at `IN` for a wire row. -/
def encode (i : Instr) : Channel × Request :=
  match i with
  | .extractBits value startBit endBit =>
    (.request, { zeroRequest with op := 0x0, a := value, b := startBit, c := endBit })
  | .splitByte b => (.request, { zeroRequest with op := 0x1, a := b.setWidth 32 })
  | .splitWord v bitsWidth => (.request, { zeroRequest with op := 0x2, a := v, b := bitsWidth })
  | .joinPair low7 high1 => (.request, { zeroRequest with op := 0x3, a := low7.setWidth 32, b := high1 })
  | .joinPairWord low7 high7 => (.request, { zeroRequest with op := 0x4, a := low7.setWidth 32, b := high7 })
  | .frame payload => (.request, { zeroRequest with op := 0x5, inp := payload, inValid := true })
  | .frameWithCode payload code =>
    (.request, { zeroRequest with op := 0x6, a := code.setWidth 32, inp := payload, inValid := true })
  | .extractFirst raw => (.request, { zeroRequest with op := 0x7, inp := raw, inValid := true })
  | .makeCode code port => (.request, { zeroRequest with op := 0x8, a := code.setWidth 32, b := port })
  | .buildInit port baudRate => (.request, { zeroRequest with op := 0x9, a := baudRate, b := port })
  | .buildArmRead port maxBytes => (.request, { zeroRequest with op := 0xA, a := maxBytes.setWidth 32, b := port })
  | .buildWrite port data => (.request, { zeroRequest with op := 0xB, b := port, inp := data, inValid := true })
  | .buildFlush port => (.request, { zeroRequest with op := 0xC, b := port })
  | .extractReplay raw => (.request, { zeroRequest with op := 0xD, inp := raw, inValid := true })
  | .extractName startIndex msg => (.request, encodeMsg { zeroRequest with op := 0xE, a := startIndex } msg)
  | .extractVersion msg => (.request, encodeMsg { zeroRequest with op := 0xF } msg)
  | .wireFrame payload => (.sysexFramer, { zeroRequest with inp := layFrame payload })
  | .uartCommand code port params => (.sysexFramer, { zeroRequest with inp := layFrame (layUart code port params) })
  | .uartInit port baudRate =>
    (.sysexFramer, { zeroRequest with inp := layFrame (layUart .init port (layBaud baudRate)) })
  | .uartReadArm port maxBytes =>
    (.sysexFramer, { zeroRequest with inp := layFrame (layUart .readArm port (layReadLength maxBytes)) })
  | .uartWrite port data => (.sysexFramer, { zeroRequest with inp := layFrame (layUart .write port (layPairs data)) })
  | .uartFlush port => (.sysexFramer, { zeroRequest with inp := layFrame (layUart .flush port []) })
  | .replayFrame x1 x2 units => (.replayExtractor, { zeroRequest with inp := layFrame (x1 :: x2 :: units) })
  | .handshakeMsg reading x0 version rest =>
    (.handshakeParser reading, { zeroRequest with inp := x0 :: version.1 :: version.2 :: rest })

/-- The bytes of a wire row: what stands at `IN`. -/
def encodeBytes (i : Instr) : List Byte := (encode i).2.inp

/-! ### Words of the opcode table -/

/-- The `n` bytes of a table word, the first transmitted byte the most significant (the table's note on its wire rows). -/
def tableBytes (n w : Nat) : List Byte :=
  match n with
  | 0 => []
  | k + 1 => BitVec.ofNat 8 (w >>> (8 * k)) :: tableBytes k w

/-- Whether decoding gave an instruction. -/
def decodes (r : Except DecodeError Instr) : Bool :=
  match r with
  | .ok _ => true
  | .error _ => false

/-- The wire channel whose unit reads these bytes: the framer's if it can, else the extractor's, else the parser's,
read for its version (log 12). -/
def wireChannel (bytes : List Byte) : Channel :=
  if decodes (decodeFrame bytes) then .sysexFramer
  else if decodes (decodeReplay bytes) then .replayExtractor
  else .handshakeParser .version

/-- Where a table word is presented. A row of at most 8 bits is a request row: `OP` is its low 4 bits (mask 0xF) and every
other port is zero. A wider row is a wire row: its bytes stand at `IN`, the other request ports keep what `q` holds. -/
def presentTableWord (nbits w : Nat) (q : Request) : Channel × Request :=
  if nbits ≤ 8 then (.request, { zeroRequest with op := BitVec.ofNat 4 w })
  else (wireChannel (tableBytes (nbits / 8) w), { q with inp := tableBytes (nbits / 8) w })

/-- The instruction the decoder reads from a word of the opcode table. -/
def decodeTableWord (nbits w : Nat) : Option Instr :=
  match decode (presentTableWord nbits w zeroRequest).1 (presentTableWord nbits w zeroRequest).2 with
  | .ok i => some i
  | .error _ => none

end Sys2Proof
end

