-- ==== Sys2Proof/Machine/State.lean ====
section
/-! DEFINITION. The state the spec gives the machine: the request ports, the response ports and the build parameters.
The block keeps nothing else between transactions (R20, R23, R26, R29). -/

namespace Sys2Proof.Machine

/-- The error outcomes of the block (R220). Each is an outcome of a transaction, after which the next request is served
like any other (R231): none of them stops the machine. -/
inductive Error where
  /-- A bit range that is reversed or wider than 8 bits (R221). -/
  | rangeError
  /-- A value that violates a protocol constraint before encoding (R222). -/
  | formatError
  /-- A reserved request encoding (R225). -/
  | illegalOp
  deriving DecidableEq, Repr

/-- The outcome of an operation (R7): a result, the absent optional, or an error. -/
inductive Answer (α : Type) where
  /-- `ok v`. -/
  | ok (v : α)
  /-- `none`, the absent optional; not an error (R223). -/
  | absent
  /-- `error E`. -/
  | error (e : Error)
  deriving DecidableEq, Repr

/-- The outcome status of a transaction (R25). -/
inductive Status where
  | ok
  | none
  | rangeError
  | formatError
  | illegalOp
  deriving DecidableEq, Repr

/-- The result ports of R22. A port the outcome puts no result in holds no value: `none` here is the spec's "no value"
(R22, R31, D21), not a number. `OUT_LEN` and `NAME_LEN` are the lengths of `out` and `name` (log 10). -/
structure Ports where
  /-- `R`, scalar result. -/
  r : Option (BitVec 16) := .none
  /-- `R2`, second scalar result. -/
  r2 : Option Byte := .none
  /-- `OUT`, sequence result (the output space of R28). -/
  out : Option (List Byte) := .none
  /-- `NAME`, the character codes of EXTRACT_NAME. -/
  name : Option (List CharCode) := .none
  deriving DecidableEq, Repr

/-- The response ports of a transaction that has responded (R22). -/
structure Response where
  /-- `STATUS`. -/
  status : Status
  /-- `R`, `R2`, `OUT`, `NAME`. -/
  ports : Ports
  deriving DecidableEq, Repr

/-- The block at its boundary, between two transactions. Only `response` is ever written by a transaction (R20, R47). -/
structure State where
  /-- The request ports, driven by the caller (R21). -/
  request : Request
  /-- The MODEL's own field: the encoding space the inputs are read in (R65, log 6). -/
  channel : Channel
  /-- The response ports; no value until a transaction has responded (R22, R31). -/
  response : Option Response
  /-- The parameters fixed when the block was built (R9, R26). -/
  params : Config.Params
  deriving DecidableEq, Repr

/-- No fault exists. Every error of the block is the outcome of a transaction and leaves it ready for the next request
(R229, R231); there is no address to fault on (R56) and no TransportError inside the block (R224). -/
inductive Fault where
  deriving DecidableEq, Repr

/-- Why a step gives no next state. -/
inductive Refusal where
  /-- Raised by an arm of `exec` for an instruction without a meaning; no arm raises it. Safe. -/
  | notModelled (mnemonic : String)
  /-- Raised by an operation that reads `IN` when the sequence is longer than a finite MAX_LEN: the model must refuse it
  and never truncate it (R9, U9). Safe. -/
  | inputTooLong
  deriving DecidableEq, Repr

/-- The state with this response on the response ports. -/
def State.withResponse (s : State) (r : Response) : State := { s with response := some r }

/-- The block on which no transaction has run. The response ports hold no value (R31). HAS_HSP is true (R9).
DESIGN CHOICE: the request ports are zero (log 2), MAX_LEN is unbounded (log 5), the channel is `request` (log 6). -/
def State.reset : State :=
  { request := zeroRequest
    channel := .request
    response := none
    params := { hasHsp := true, maxLen := none } }

end Sys2Proof.Machine
end

