-- ==== Sys2Proof/Machine/Flags.lean ====
section
/-! DEFINITION. The one flag-like value, the outcome status (R25), and the response an outcome puts on the ports (R22). -/

namespace Sys2Proof.Machine

/-- The status code on the 3-bit `STATUS` port (R226); 5, 6 and 7 are never produced. -/
def Status.code : Status → BitVec 3
  | .ok => 0
  | .none => 1
  | .rangeError => 2
  | .formatError => 3
  | .illegalOp => 4

/-- The status that reports an error (R25, R220). -/
def Error.status : Error → Status
  | .rangeError => .rangeError
  | .formatError => .formatError
  | .illegalOp => .illegalOp

/-- A response without a result: no result port holds a value (R22). -/
def bareResponse (st : Status) : Response := { status := st, ports := {} }

/-- A `u8` result: in `R[7:0]`, `R[15:8]` zero (R22). -/
def byteResult (b : Byte) : Response := { status := .ok, ports := { r := some (b.setWidth 16) } }

/-- A `u16` result: in `R[15:0]` (R22). -/
def wordResult (w : BitVec 16) : Response := { status := .ok, ports := { r := some w } }

/-- Two `u8` results: the first in `R[7:0]`, the second in `R2` (R22). -/
def pairResult (p : Byte × Byte) : Response :=
  { status := .ok, ports := { r := some (p.1.setWidth 16), r2 := some p.2 } }

/-- A sequence result: in `OUT` (R22). -/
def seqResult (out : List Byte) : Response := { status := .ok, ports := { out := some out } }

/-- A name result: in `NAME` (R22). -/
def nameResult (codes : List CharCode) : Response := { status := .ok, ports := { name := some codes } }

end Sys2Proof.Machine
end

