-- ==== Sys2Proof/Machine/Ops.lean ====
section
/-! DEFINITION. The shared operations: sequencing of outcomes, responding, taking an error, and the two checks a
request passes before its operands are examined. -/

namespace Sys2Proof.Machine

/-- An operation defined through another: the inner error, or `none`, becomes the outer outcome unchanged (R230). -/
def Answer.bind {α β : Type} (x : Answer α) (f : α → Answer β) : Answer β :=
  match x with
  | .ok v => f v
  | .absent => .absent
  | .error e => .error e

/-- The result of an outcome, nothing where there is none. -/
def Answer.toOption {α : Type} : Answer α → Option α
  | .ok v => some v
  | .absent => none
  | .error _ => none

/-- Taking an error (R229): the response carries the status and nothing else; no state is saved, no mode changes, no
vector is followed. There is no return operation: the next request is served like any other (R231). -/
def takeError (s : State) (e : Error) : State := s.withResponse (bareResponse e.status)

/-- The response to an outcome (R22, R25): the result in its ports, status NONE, or the error taken. -/
def respond {α : Type} (s : State) (x : Answer α) (result : α → Response) : Host.Outcome State Fault Refusal :=
  match x with
  | .ok v => .next (s.withResponse (result v))
  | .absent => .next (s.withResponse (bareResponse .none))
  | .error e => .next (takeError s e)

/-- Whether an input sequence is within MAX_LEN (R9). -/
def fits (p : Config.Params) (input : List Byte) : Bool :=
  match p.maxLen with
  | none => true
  | some n => decide (input.length ≤ n)

/-- Accepting an input sequence: one longer than a finite MAX_LEN is refused, never truncated (R9, U9). -/
def accept (s : State) (input : List Byte) (run : Host.Outcome State Fault Refusal) : Host.Outcome State Fault Refusal :=
  if fits s.params input then run else .refused .inputTooLong

/-- Accepting a message that may be absent: an absent one has no length. -/
def acceptMsg (s : State) (msg : Option (List Byte)) (run : Host.Outcome State Fault Refusal) :
    Host.Outcome State Fault Refusal :=
  match msg with
  | none => run
  | some m => accept s m run

/-- An operation of the optional unit: IllegalOp without HAS_HSP, before any operand is examined (R80, R225, R228). -/
def needHsp (s : State) (run : Host.Outcome State Fault Refusal) : Host.Outcome State Fault Refusal :=
  if s.params.hasHsp then run else .next (takeError s .illegalOp)

end Sys2Proof.Machine
end

