-- ==== Sys2Proof/Machine/BitField.lean ====
section
/-! DEFINITION. The BitField unit (R100 to R105). -/

namespace Sys2Proof.Machine

/-- EXTRACT_BITS on integers (R100): RangeError for a range that is reversed or wider than 8 bits, else
`value[endBit:startBit]`, the bits above the top of `value` reading as 0. -/
def extractBits (value startBit endBit : Nat) : Answer Byte :=
  if endBit < startBit then .error .rangeError
  else if 7 < endBit - startBit then .error .rangeError
  else .ok (BitVec.ofNat 8 (bits value startBit (endBit - startBit + 1)))

/-- EXTRACT_BITS (R100). -/
def execExtractBits (value : Value) (startBit endBit : Byte) (s : State) : Host.Outcome State Fault Refusal :=
  respond s (extractBits value.toNat startBit.toNat endBit.toNat) byteResult

end Sys2Proof.Machine
end

