-- ==== Sys2Proof/Machine/SevenBitCodec.lean ====
section
/-! DEFINITION. The SevenBitCodec unit (R110 to R115). -/

namespace Sys2Proof.Machine

/-- SPLIT_BYTE (R110): bits 0 to 6, then bit 7. -/
def splitByte (b : Byte) : Answer (Byte × Byte) :=
  (extractBits b.toNat 0 6).bind fun low7 =>
    (extractBits b.toNat 7 7).bind fun high1 => .ok (low7, high1)

/-- The `n` groups of `v` from group `k` up, least significant first (R41, R78, R111). -/
def groups (v : Value) (k : Nat) : Nat → Answer (List Byte)
  | 0 => .ok []
  | n + 1 =>
    (extractBits v.toNat (7 * k) (7 * k + 6)).bind fun g =>
      (groups v (k + 1) n).bind fun rest => .ok (g :: rest)

/-- SPLIT_WORD (R111): `bitsWidth / 7` groups; IllegalOp for a width other than 7, 14 and 21 (R80). -/
def splitWord (v : Value) (bitsWidth : Nat) : Answer (List Byte) :=
  if bitsWidth = 7 ∨ bitsWidth = 14 ∨ bitsWidth = 21 then groups v 0 (bitsWidth / 7)
  else .error .illegalOp

/-- The sum of a pair, `low7 + ((high1 & 1) << 7)`: the low unit not masked, only bit 0 of the high unit used (R79, R112). -/
def pairSum (low7 high1 : Byte) : Nat := low7.toNat + ((high1.toNat &&& 1) <<< 7)

/-- JOIN_PAIR (R112): the low 8 bits of the pair's sum. -/
def joinPair (low7 high1 : Byte) : Byte := BitVec.ofNat 8 (pairSum low7 high1)

/-- JOIN_PAIR_WORD (R113): the low unit not masked, 7 bits of the high unit used. -/
def joinPairWord (low7 high7 : Byte) : Answer (BitVec 16) :=
  (extractBits high7.toNat 0 6).bind fun g => .ok (BitVec.ofNat 16 (low7.toNat + (g.toNat <<< 7)))

/-- SPLIT_BYTE (R110). -/
def execSplitByte (b : Byte) (s : State) : Host.Outcome State Fault Refusal :=
  respond s (splitByte b) pairResult

/-- SPLIT_WORD (R111). -/
def execSplitWord (v : Value) (bitsWidth : Byte) (s : State) : Host.Outcome State Fault Refusal :=
  respond s (splitWord v bitsWidth.toNat) seqResult

/-- JOIN_PAIR (R112). -/
def execJoinPair (low7 high1 : Byte) (s : State) : Host.Outcome State Fault Refusal :=
  respond s (.ok (joinPair low7 high1)) byteResult

/-- JOIN_PAIR_WORD (R113). -/
def execJoinPairWord (low7 high7 : Byte) (s : State) : Host.Outcome State Fault Refusal :=
  respond s (joinPairWord low7 high7) wordResult

end Sys2Proof.Machine
end

