-- ==== Sys2Proof/Machine/HandshakeParser.lean ====
section
/-! DEFINITION. The optional HandshakeParser unit (R200 to R202). -/

namespace Sys2Proof.Machine

/-- One character code per consecutive pair, the pair's sum kept exactly at 9 bits (R200). -/
def nameCodes : List Byte → List CharCode
  | l :: h :: rest => BitVec.ofNat 9 (pairSum l h) :: nameCodes rest
  | _ => []

/-- EXTRACT_NAME (R200): `none` where the message is absent, shorter than the start index, or has an odd remainder. -/
def extractName (startIndex : Nat) (msg : Option (List Byte)) : Answer (List CharCode) :=
  match msg with
  | none => .absent
  | some m =>
    if m.length < startIndex then .absent
    else if (m.length - startIndex) % 2 = 1 then .absent
    else .ok (nameCodes (m.drop startIndex))

/-- EXTRACT_VERSION (R201): `msg[1]` and `msg[2]` as they are; `none` where the message is absent or shorter than 3. -/
def extractVersion (msg : Option (List Byte)) : Answer (Byte × Byte) :=
  match msg with
  | some (_ :: major :: minorRaw :: _) => .ok (major, minorRaw)
  | _ => .absent

/-- EXTRACT_NAME (R200). -/
def execExtractName (startIndex : Value) (msg : Option (List Byte)) (s : State) : Host.Outcome State Fault Refusal :=
  needHsp s (acceptMsg s msg (respond s (extractName startIndex.toNat msg) nameResult))

/-- EXTRACT_VERSION (R201). -/
def execExtractVersion (msg : Option (List Byte)) (s : State) : Host.Outcome State Fault Refusal :=
  needHsp s (acceptMsg s msg (respond s (extractVersion msg) pairResult))

end Sys2Proof.Machine
end

