-- ==== Sys2Proof/Machine/ReplayExtractor.lean ====
section
/-! DEFINITION. The ReplayExtractor unit (R180 to R186). -/

namespace Sys2Proof.Machine

/-- The scan of R180 from cursor `cur` with accumulator `flat`, at most `fuel` frames: the units of every complete
frame's data area, in order (R181 to R184). -/
def replayScan (raw : List Byte) : Nat → Nat → List Byte → List Byte
  | 0, _, flat => flat
  | fuel + 1, cur, flat =>
    match find raw Config.startMarker cur with
    | none => flat
    | some st =>
      match find raw Config.endMarker st with
      | none => flat
      | some e =>
        replayScan raw fuel (e + 1)
          (if st + Config.dataOffset < e then flat ++ slice raw (st + Config.dataOffset) e else flat)

/-- The regrouping of R180: JOIN_PAIR two at a time, a last unit without a partner dropped (R46, R184). -/
def joinPairs : List Byte → List Byte
  | l :: h :: rest => joinPair l h :: joinPairs rest
  | _ => []

/-- EXTRACT_REPLAY (R180). Each frame takes at least two bytes, so `len(raw)` frames are more than there can be (R185). -/
def extractReplay (raw : List Byte) : List Byte := joinPairs (replayScan raw raw.length 0 [])

/-- EXTRACT_REPLAY (R180). -/
def execExtractReplay (raw : List Byte) (s : State) : Host.Outcome State Fault Refusal :=
  accept s raw (respond s (.ok (extractReplay raw)) seqResult)

end Sys2Proof.Machine
end

