-- ==== Sys2Proof/Machine/SysexFramer.lean ====
section
/-! DEFINITION. The SysexFramer unit (R130 to R133). -/

namespace Sys2Proof.Machine

/-- FRAME (R130): FormatError where a payload byte is 0x80 or above, else the payload between the markers. -/
def frame (payload : List Byte) : Answer (List Byte) :=
  if unitsOnly payload then .ok (Config.startMarker :: (payload ++ [Config.endMarker])) else .error .formatError

/-- FRAME_WITH_CODE (R131): the code is the first payload byte and is checked like any other. -/
def frameWithCode (payload : List Byte) (code : Byte) : Answer (List Byte) := frame (code :: payload)

/-- EXTRACT_FIRST (R132): the bytes between the first start marker and the first end marker at or after it, unchecked. -/
def extractFirst (raw : List Byte) : Answer (List Byte) :=
  match find raw Config.startMarker 0 with
  | none => .absent
  | some st =>
    match find raw Config.endMarker st with
    | none => .absent
    | some e => .ok (slice raw (st + 1) e)

/-- FRAME (R130). -/
def execFrame (payload : List Byte) (s : State) : Host.Outcome State Fault Refusal :=
  accept s payload (respond s (frame payload) seqResult)

/-- FRAME_WITH_CODE (R131). -/
def execFrameWithCode (payload : List Byte) (code : Byte) (s : State) : Host.Outcome State Fault Refusal :=
  accept s payload (respond s (frameWithCode payload code) seqResult)

/-- EXTRACT_FIRST (R132). -/
def execExtractFirst (raw : List Byte) (s : State) : Host.Outcome State Fault Refusal :=
  accept s raw (respond s (extractFirst raw) seqResult)

end Sys2Proof.Machine
end

