-- ==== Sys2Proof/Machine/UartCommandBuilder.lean ====
section
/-! DEFINITION. The UartCommandBuilder unit (R150 to R157). -/

namespace Sys2Proof.Machine

/-- MAKE_CODE (R150): FormatError where the code's low nibble is not zero or the port is 16 or above, else `code | port`. -/
def makeCode (code port : Byte) : Answer Byte :=
  if code.toNat % 16 ≠ 0 then .error .formatError
  else if Config.portLimit ≤ port.toNat then .error .formatError
  else .ok (code ||| port)

/-- The common wrapper of the four builders (R151, R156): the port-fused byte and the parameters, framed under the selector. -/
def buildCommand (code port : Byte) (params : Answer (List Byte)) : Answer (List Byte) :=
  (makeCode code port).bind fun c => params.bind fun ps => frameWithCode (c :: ps) Config.selUart

/-- BUILD_INIT (R152): bit 31 of the baud rate set is "negative", FormatError; else three groups of the rate. -/
def buildInit (port : Byte) (baudRate : Value) : Answer (List Byte) :=
  if baudRate.getLsbD 31 then .error .formatError
  else buildCommand Config.codeInit port (splitWord baudRate 21)

/-- BUILD_ARM_READ (R153): a length of 0x4000 or above is FormatError; else the literal 0 and two groups of the length. -/
def buildArmRead (port : Byte) (maxBytes : BitVec 16) : Answer (List Byte) :=
  if Config.readLimit ≤ maxBytes.toNat then .error .formatError
  else
    buildCommand Config.codeReadArm port <|
      (extractBits maxBytes.toNat 0 6).bind fun lo =>
        (extractBits maxBytes.toNat 7 13).bind fun hi => .ok [Config.armReadLiteral, lo, hi]

/-- The pairs of the data bytes, concatenated in order (R42, R154). -/
def packBytes : List Byte → Answer (List Byte)
  | [] => .ok []
  | b :: bs => (splitByte b).bind fun p => (packBytes bs).bind fun rest => .ok (p.1 :: p.2 :: rest)

/-- BUILD_WRITE (R154): every data byte as its pair. -/
def buildWrite (port : Byte) (data : List Byte) : Answer (List Byte) :=
  buildCommand Config.codeWrite port (packBytes data)

/-- BUILD_FLUSH (R155): no parameters. -/
def buildFlush (port : Byte) : Answer (List Byte) := buildCommand Config.codeFlush port (.ok [])

/-- MAKE_CODE (R150). -/
def execMakeCode (code port : Byte) (s : State) : Host.Outcome State Fault Refusal :=
  respond s (makeCode code port) byteResult

/-- BUILD_INIT (R152). -/
def execBuildInit (port : Byte) (baudRate : Value) (s : State) : Host.Outcome State Fault Refusal :=
  respond s (buildInit port baudRate) seqResult

/-- BUILD_ARM_READ (R153). -/
def execBuildArmRead (port : Byte) (maxBytes : BitVec 16) (s : State) : Host.Outcome State Fault Refusal :=
  respond s (buildArmRead port maxBytes) seqResult

/-- BUILD_WRITE (R154). -/
def execBuildWrite (port : Byte) (data : List Byte) (s : State) : Host.Outcome State Fault Refusal :=
  accept s data (respond s (buildWrite port data) seqResult)

/-- BUILD_FLUSH (R155). -/
def execBuildFlush (port : Byte) (s : State) : Host.Outcome State Fault Refusal :=
  respond s (buildFlush port) seqResult

end Sys2Proof.Machine
end

