-- ==== Sys2Proof/Machine/WireMessages.lean ====
section
/-! DEFINITION. The wire rows R69 to R76: a message on the wire is consumed by the unit that reads it (R6, R65; log 7).
A frame is read by EXTRACT_FIRST (R132, R157), a replay frame by EXTRACT_REPLAY (R75, R180), a handshake message by
EXTRACT_VERSION or EXTRACT_NAME (R76, R200, R201, R202; log 8). -/

namespace Sys2Proof.Machine

/-- The SysexFramer reads the bytes of a frame (R132). -/
def readFrame (bytes : List Byte) (s : State) : Host.Outcome State Fault Refusal :=
  accept s bytes (respond s (extractFirst bytes) seqResult)

/-- The HandshakeParser reads a message by one of its two operations (R76, R202), the one that the channel names: the version
of R201 in `R` and `R2`, or the name of R200 in `NAME`, from a caller-given index. DESIGN CHOICE, log 8. -/
def readHandshake (reading : HandshakeReading) (bytes : List Byte) (s : State) : Host.Outcome State Fault Refusal :=
  match reading with
  | .version => needHsp s (accept s bytes (respond s (extractVersion (some bytes)) pairResult))
  | .name startIndex => needHsp s (accept s bytes (respond s (extractName startIndex.toNat (some bytes)) nameResult))

/-- WIRE_FRAME (R69). -/
def execWireFrame (payload : List Byte) (s : State) : Host.Outcome State Fault Refusal :=
  readFrame (encodeBytes (.wireFrame payload)) s

/-- UART_COMMAND (R70). -/
def execUartCommand (code : SubCode) (port : BitVec 4) (params : List Byte) (s : State) :
    Host.Outcome State Fault Refusal :=
  readFrame (encodeBytes (.uartCommand code port params)) s

/-- UART_INIT (R71). -/
def execUartInit (port : BitVec 4) (baudRate : BitVec 21) (s : State) : Host.Outcome State Fault Refusal :=
  readFrame (encodeBytes (.uartInit port baudRate)) s

/-- UART_READ_ARM (R72). -/
def execUartReadArm (port : BitVec 4) (maxBytes : BitVec 14) (s : State) : Host.Outcome State Fault Refusal :=
  readFrame (encodeBytes (.uartReadArm port maxBytes)) s

/-- UART_WRITE (R73). -/
def execUartWrite (port : BitVec 4) (data : List Byte) (s : State) : Host.Outcome State Fault Refusal :=
  readFrame (encodeBytes (.uartWrite port data)) s

/-- UART_FLUSH (R74). -/
def execUartFlush (port : BitVec 4) (s : State) : Host.Outcome State Fault Refusal :=
  readFrame (encodeBytes (.uartFlush port)) s

/-- REPLAY_FRAME (R75). -/
def execReplayFrame (x1 x2 : Byte) (units : List Byte) (s : State) : Host.Outcome State Fault Refusal :=
  accept s (encodeBytes (.replayFrame x1 x2 units))
    (respond s (.ok (extractReplay (encodeBytes (.replayFrame x1 x2 units)))) seqResult)

/-- HANDSHAKE_MSG (R76). The message is present by standing on the wire: `IN_VALID` is not read. DESIGN CHOICE, logs 8, 20. -/
def execHandshakeMsg (reading : HandshakeReading) (x0 : Byte) (version : Byte × Byte) (rest : List Byte) (s : State) :
    Host.Outcome State Fault Refusal :=
  readHandshake reading (encodeBytes (.handshakeMsg reading x0 version rest)) s

end Sys2Proof.Machine
end

