-- ==== Sys2Proof/Machine/Dispatch.lean ====
section
/-! DEFINITION. One arm per row of spec/opcode_table.json. -/

namespace Sys2Proof.Machine

def exec (i : Instr) (s : State) : Host.Outcome State Fault Refusal :=
  match i with
  -- request space, R67
  | .extractBits value startBit endBit => Sys2Proof.Machine.execExtractBits value startBit endBit s
  | .splitByte b => Sys2Proof.Machine.execSplitByte b s
  | .splitWord v bitsWidth => Sys2Proof.Machine.execSplitWord v bitsWidth s
  | .joinPair low7 high1 => Sys2Proof.Machine.execJoinPair low7 high1 s
  | .joinPairWord low7 high7 => Sys2Proof.Machine.execJoinPairWord low7 high7 s
  | .frame payload => Sys2Proof.Machine.execFrame payload s
  | .frameWithCode payload code => Sys2Proof.Machine.execFrameWithCode payload code s
  | .extractFirst raw => Sys2Proof.Machine.execExtractFirst raw s
  | .makeCode code port => Sys2Proof.Machine.execMakeCode code port s
  | .buildInit port baudRate => Sys2Proof.Machine.execBuildInit port baudRate s
  | .buildArmRead port maxBytes => Sys2Proof.Machine.execBuildArmRead port maxBytes s
  | .buildWrite port data => Sys2Proof.Machine.execBuildWrite port data s
  | .buildFlush port => Sys2Proof.Machine.execBuildFlush port s
  | .extractReplay raw => Sys2Proof.Machine.execExtractReplay raw s
  | .extractName startIndex msg => Sys2Proof.Machine.execExtractName startIndex msg s
  | .extractVersion msg => Sys2Proof.Machine.execExtractVersion msg s
  -- wire space, R69 to R76
  | .wireFrame payload => Sys2Proof.Machine.execWireFrame payload s
  | .uartCommand code port params => Sys2Proof.Machine.execUartCommand code port params s
  | .uartInit port baudRate => Sys2Proof.Machine.execUartInit port baudRate s
  | .uartReadArm port maxBytes => Sys2Proof.Machine.execUartReadArm port maxBytes s
  | .uartWrite port data => Sys2Proof.Machine.execUartWrite port data s
  | .uartFlush port => Sys2Proof.Machine.execUartFlush port s
  | .replayFrame x1 x2 units => Sys2Proof.Machine.execReplayFrame x1 x2 units s
  | .handshakeMsg reading x0 version rest => Sys2Proof.Machine.execHandshakeMsg reading x0 version rest s

end Sys2Proof.Machine
end

