-- ==== Sys2Proof/Machine/Step.lean ====
section
/-! DEFINITION. One step of the machine: one transaction on what the inputs present (R5, R7). -/

namespace Sys2Proof.Machine

/-- One transaction: the instruction the inputs present runs to its outcome (R7). The inputs stay as the caller drives
them (R47; log 1). -/
def step (s : State) : Host.Outcome State Fault Refusal := exec (presented s.channel s.request) s

/-- The state whose inputs present a word of the opcode table, as a caller would drive them (log 12). -/
def State.withFetchWord (s : State) (nbits w : Nat) : State :=
  { s with channel := (presentTableWord nbits w s.request).1, request := (presentTableWord nbits w s.request).2 }

end Sys2Proof.Machine
end

