-- ==== Sys2Proof/WellFormed.lean ====
section
/-! DEFINITION. When a term of `Instr` is one that its encoding can carry. Every request is well-formed: each field is
as wide as its port, and reserved operand values have an outcome (R80). A wire row is checked against its encoding. -/

namespace Sys2Proof

open Machine

/-- The payload of a UART command frame by R84: selector 0x60, then a byte whose high nibble is a code of R70. -/
def uartShaped : List Byte → Bool
  | sel :: fused :: _ => decide (sel = Config.selUart) && (subCodeOfNibble (fused.extractLsb' 4 4)).isSome
  | _ => false

/-- The parameters are exactly those of the sub-command's own row, R71 to R74 (R84): three groups, pairs, the literal 0
and two groups, none. -/
def specificParams (code : SubCode) (params : List Byte) : Bool :=
  match code with
  | .init => decide (params.length = 3)
  | .write => (readPairs params).isSome
  | .readArm => decide (params.length = 3) && decide (params.head? = some Config.armReadLiteral)
  | .flush => decide (params.length = 0)

/-- The byte is not the end marker. -/
def notEnd (b : Byte) : Bool := decide (b ≠ Config.endMarker)

/-- A term its row's encoding carries and no more specific row does (R84):
a frame's payload is 7-bit clean (R69) and not that of a UART command frame; the general UART command frame has 7-bit-clean
parameters (R70) that are not those of its sub-command's own row; a replay frame holds no end marker before its end (R81). -/
def WellFormed : Instr → Bool
  | .extractBits _ _ _ => true
  | .splitByte _ => true
  | .splitWord _ _ => true
  | .joinPair _ _ => true
  | .joinPairWord _ _ => true
  | .frame _ => true
  | .frameWithCode _ _ => true
  | .extractFirst _ => true
  | .makeCode _ _ => true
  | .buildInit _ _ => true
  | .buildArmRead _ _ => true
  | .buildWrite _ _ => true
  | .buildFlush _ => true
  | .extractReplay _ => true
  | .extractName _ _ => true
  | .extractVersion _ => true
  | .wireFrame payload => unitsOnly payload && !uartShaped payload
  | .uartCommand code _ params => unitsOnly params && !specificParams code params
  | .uartInit _ _ => true
  | .uartReadArm _ _ => true
  | .uartWrite _ _ => true
  | .uartFlush _ => true
  | .replayFrame x1 x2 units => notEnd x1 && notEnd x2 && units.all notEnd
  | .handshakeMsg _ _ _ _ => true

end Sys2Proof
end

