-- ==== Sys2Proof/Safety.lean ====
section
/-! DEFINITION. What counts as a safe step, when a request is accepted, and what a response may look like. -/

namespace Sys2Proof

open Machine

/-- A safe step: the transaction responds (R7); it is not refused. -/
def SafeStep (s : State) : Prop := ∃ t, step s = .next t

/-- The sequence a transaction takes from `IN`, none for an operation that does not read it or a message that is absent. -/
def inputOf : Instr → Option (List Byte)
  | .extractBits _ _ _ => none
  | .splitByte _ => none
  | .splitWord _ _ => none
  | .joinPair _ _ => none
  | .joinPairWord _ _ => none
  | .frame payload => some payload
  | .frameWithCode payload _ => some payload
  | .extractFirst raw => some raw
  | .makeCode _ _ => none
  | .buildInit _ _ => none
  | .buildArmRead _ _ => none
  | .buildWrite _ data => some data
  | .buildFlush _ => none
  | .extractReplay raw => some raw
  | .extractName _ msg => msg
  | .extractVersion msg => msg
  | .wireFrame payload => some (encodeBytes (.wireFrame payload))
  | .uartCommand code port params => some (encodeBytes (.uartCommand code port params))
  | .uartInit port baudRate => some (encodeBytes (.uartInit port baudRate))
  | .uartReadArm port maxBytes => some (encodeBytes (.uartReadArm port maxBytes))
  | .uartWrite port data => some (encodeBytes (.uartWrite port data))
  | .uartFlush port => some (encodeBytes (.uartFlush port))
  | .replayFrame x1 x2 units => some (encodeBytes (.replayFrame x1 x2 units))
  | .handshakeMsg reading x0 version rest => some (encodeBytes (.handshakeMsg reading x0 version rest))

/-- The rows of the optional HandshakeParser unit (R9, R80). -/
def ofHandshakeParser : Instr → Bool
  | .extractName _ _ => true
  | .extractVersion _ => true
  | .handshakeMsg _ _ _ _ => true
  | _ => false

/-- The transaction is accepted: its input is within MAX_LEN (R9), or it is answered IllegalOp before any operand is
examined (R80, R228). -/
def accepted (p : Config.Params) (i : Instr) : Bool :=
  match inputOf i with
  | none => true
  | some input => fits p input || (ofHandshakeParser i && !p.hasHsp)

/-- The shape of every response: without status OK no result port holds a value, with it at least one does (R22);
`R` is at most 0x407F, below 0x100 where `R2` holds a value, and every character code is at most 383 (R22, R103). -/
def responseOk (r : Response) : Prop :=
  (r.status ≠ .ok → r.ports = {}) ∧
  (r.status = .ok → r.ports ≠ {}) ∧
  (∀ w, r.ports.r = some w → w.toNat ≤ 0x407F ∧ (r.ports.r2 ≠ none → w.toNat < 0x100)) ∧
  (∀ codes, r.ports.name = some codes → ∀ c ∈ codes, c.toNat ≤ 383)

/-- The invariant of the machine: a response that stands on the ports has the shape of R22. -/
def Inv (s : State) : Prop := ∀ r, s.response = some r → responseOk r

end Sys2Proof
end

