-- ==== Sys2Proof/Certificates/Slice0/Obligations.lean ====
section
/-! DEFINITION. The statements for the provers. Each docstring names the rule it formalises; where a clause is the model's
choice, it names the log entry. Results are written with plain arithmetic on bytes, not with the model's own functions. -/

open Sys2Proof Sys2Proof.Machine

namespace Sys2Proof.Claims

/-- The transaction responds with status OK and these result ports; nothing else of the state changes. -/
abbrev okWith (s : State) (p : Ports) : Host.Outcome State Fault Refusal :=
  .next (s.withResponse { status := .ok, ports := p })

/-- The transaction responds with this status and no result port; nothing else of the state changes. -/
abbrev endsWith (s : State) (st : Status) : Host.Outcome State Fault Refusal :=
  .next (s.withResponse { status := st, ports := {} })

/-- The byte of this value. -/
abbrev byte (n : Nat) : Byte := BitVec.ofNat 8 n

/-- A request with this select code is this instruction, on what its ports hold (R67). -/
def selects (op : BitVec 4) (i : Request → Instr) : Prop := ∀ q : Request, q.op = op → decode .request q = .ok (i q)

/-- The value of a sub-command code (R151). -/
def codeValue : SubCode → Nat
  | .init => 0x10
  | .write => 0x20
  | .readArm => 0x30
  | .flush => 0x60

/-- `out` is JOIN_PAIR over the units two at a time, a last unit without a partner dropped (R180, R112). -/
def joinsPairs (units out : List Byte) : Prop :=
  out.length = units.length / 2 ∧
  ∀ (k : Nat) (l h : Byte), units[2 * k]? = some l → units[2 * k + 1]? = some h →
    out[k]? = some (byte (l.toNat + 128 * (h.toNat % 2)))

/-- `codes` is one character code per pair of the bytes, each the pair's exact sum (R200). -/
def namesPairs (bytes : List Byte) (codes : List CharCode) : Prop :=
  codes.length = bytes.length / 2 ∧
  ∀ (k : Nat) (l h : Byte), bytes[2 * k]? = some l → bytes[2 * k + 1]? = some h →
    ∃ c : CharCode, codes[k]? = some c ∧ c.toNat = l.toNat + 128 * (h.toNat % 2)

/-- A receive buffer: before each frame a gap, each frame a body between its markers, then a tail. -/
def stream (frames : List (List Byte × List Byte)) (tail : List Byte) : List Byte :=
  frames.flatMap (fun f => f.1 ++ 0xF0#8 :: (f.2 ++ [0xF7#8])) ++ tail

/-- No gap holds a start marker, no body an end marker, and the tail holds no complete frame. -/
def streamParts (frames : List (List Byte × List Byte)) (tail : List Byte) : Prop :=
  (∀ f ∈ frames, 0xF0#8 ∉ f.1 ∧ 0xF7#8 ∉ f.2) ∧
  (0xF0#8 ∉ tail ∨ ∃ gap rest, tail = gap ++ 0xF0#8 :: rest ∧ 0xF0#8 ∉ gap ∧ 0xF7#8 ∉ rest)

/-- Two requests with the same `OP` agree on every operand bit that R67 says the operation reads. -/
def sameOperands (q q' : Request) : Prop :=
  match q.op.toNat with
  | 0x0 => q.a = q'.a ∧ q.b = q'.b ∧ q.c = q'.c
  | 0x1 => q.a.toNat % 256 = q'.a.toNat % 256
  | 0x2 => q.a = q'.a ∧ q.b = q'.b
  | 0x3 => q.a.toNat % 256 = q'.a.toNat % 256 ∧ q.b = q'.b
  | 0x4 => q.a.toNat % 256 = q'.a.toNat % 256 ∧ q.b = q'.b
  | 0x5 => q.inp = q'.inp
  | 0x6 => q.inp = q'.inp ∧ q.a.toNat % 256 = q'.a.toNat % 256
  | 0x7 => q.inp = q'.inp
  | 0x8 => q.a.toNat % 256 = q'.a.toNat % 256 ∧ q.b = q'.b
  | 0x9 => q.b = q'.b ∧ q.a = q'.a
  | 0xA => q.b = q'.b ∧ q.a.toNat % 65536 = q'.a.toNat % 65536
  | 0xB => q.b = q'.b ∧ q.inp = q'.inp
  | 0xC => q.b = q'.b
  | 0xD => q.inp = q'.inp
  | 0xE => q.a = q'.a ∧ q.inValid = q'.inValid ∧ (q.inValid = true → q.inp = q'.inp)
  | _ => q.inValid = q'.inValid ∧ (q.inValid = true → q.inp = q'.inp)

/-- The status the table of R220 gives an operation of R67 on these operands; the wire rows are not in that table. -/
def tabledStatus (p : Config.Params) (i : Instr) (st : Status) : Prop :=
  match i with
  | .extractBits _ startBit endBit =>
    st = if startBit.toNat ≤ endBit.toNat ∧ endBit.toNat - startBit.toNat ≤ 7 then .ok else .rangeError
  | .splitByte _ => st = .ok
  | .splitWord _ w => st = if w.toNat = 7 ∨ w.toNat = 14 ∨ w.toNat = 21 then .ok else .illegalOp
  | .joinPair _ _ => st = .ok
  | .joinPairWord _ _ => st = .ok
  | .frame payload => st = if ∀ b ∈ payload, b.toNat < 0x80 then .ok else .formatError
  | .frameWithCode payload code =>
    st = if code.toNat < 0x80 ∧ ∀ b ∈ payload, b.toNat < 0x80 then .ok else .formatError
  | .extractFirst raw =>
    (st = .ok ∧ ∃ i j : Nat, i < j ∧ raw[i]? = some 0xF0#8 ∧ raw[j]? = some 0xF7#8) ∨
    (st = .none ∧ ¬∃ i j : Nat, i < j ∧ raw[i]? = some 0xF0#8 ∧ raw[j]? = some 0xF7#8)
  | .makeCode code port => st = if code.toNat % 16 = 0 ∧ port.toNat < 16 then .ok else .formatError
  | .buildInit port baudRate => st = if baudRate.toNat < 2 ^ 31 ∧ port.toNat < 16 then .ok else .formatError
  | .buildArmRead port maxBytes => st = if maxBytes.toNat < 0x4000 ∧ port.toNat < 16 then .ok else .formatError
  | .buildWrite port _ => st = if port.toNat < 16 then .ok else .formatError
  | .buildFlush port => st = if port.toNat < 16 then .ok else .formatError
  | .extractReplay _ => st = .ok
  | .extractName startIndex msg =>
    st = if p.hasHsp then
        match msg with
        | none => .none
        | some m =>
          if m.length < startIndex.toNat ∨ (m.length - startIndex.toNat) % 2 = 1 then .none else .ok
      else .illegalOp
  | .extractVersion msg =>
    st = if p.hasHsp then
        match msg with
        | none => .none
        | some m => if m.length < 3 then .none else .ok
      else .illegalOp
  | _ => True

end Sys2Proof.Claims

open Sys2Proof.Claims

/-! ### Encodings -/

/-- Decoding an encoded well-formed instruction gives it back, for every row of the opcode table (R67, R69 to R76, R84).
What makes a wire row well-formed beside another row is the model's choice (log 9), and so are the channel (log 6) and that it
carries which operation reads a handshake message (log 8). -/
def Obligations.DecodeOfEncodedInstruction : Prop :=
  ∀ i : Instr, WellFormed i = true → decode (encode i).1 (encode i).2 = .ok i

/-- Encoding a decoded wire message gives its bytes back: every byte on a wire channel has one meaning (R69 to R76, R84;
the model's choices of logs 6, 8 and 9). -/
def Obligations.EncodeOfDecodedWireMessage : Prop :=
  ∀ (ch : Channel) (q : Request) (i : Instr), ch ≠ .request → decode ch q = .ok i →
    WellFormed i = true ∧ (encode i).1 = ch ∧ encodeBytes i = q.inp

/-- An operation reads only the operands its rule names, and of a port only the bits of the operand's width (R21, R67). -/
def Obligations.RequestReadsNamedOperandsOnly : Prop :=
  ∀ q q' : Request, q.op = q'.op → sameOperands q q' → decode .request q = decode .request q'

/-- The operation each select code selects, on the operands R67 names: what the ports hold, cut to the operand's width (R21,
R66, R67). The codes and the ports are the spec's own decisions D2, D3, D30. -/
def Obligations.RequestSelectsOperationByOp : Prop :=
  selects 0x0 (fun q => .extractBits q.a q.b q.c) ∧
  selects 0x1 (fun q => .splitByte (byte q.a.toNat)) ∧
  selects 0x2 (fun q => .splitWord q.a q.b) ∧
  selects 0x3 (fun q => .joinPair (byte q.a.toNat) q.b) ∧
  selects 0x4 (fun q => .joinPairWord (byte q.a.toNat) q.b) ∧
  selects 0x5 (fun q => .frame q.inp) ∧
  selects 0x6 (fun q => .frameWithCode q.inp (byte q.a.toNat)) ∧
  selects 0x7 (fun q => .extractFirst q.inp) ∧
  selects 0x8 (fun q => .makeCode (byte q.a.toNat) q.b) ∧
  selects 0x9 (fun q => .buildInit q.b q.a) ∧
  selects 0xA (fun q => .buildArmRead q.b (BitVec.ofNat 16 q.a.toNat)) ∧
  selects 0xB (fun q => .buildWrite q.b q.inp) ∧
  selects 0xC (fun q => .buildFlush q.b) ∧
  selects 0xD (fun q => .extractReplay q.inp) ∧
  selects 0xE (fun q => .extractName q.a (if q.inValid then some q.inp else none)) ∧
  selects 0xF (fun q => .extractVersion (if q.inValid then some q.inp else none))

/-- A few words of the opcode table decode to their rows: the codes of R67 and the bytes of R71, R72 and R74. How a word
presents them is the model's choice (log 12): a word of at most 8 bits is `OP` with every other port zero, a wider word's most
significant byte is the first byte, and the framer's channel is tried first. -/
def Obligations.TableWordsDecodeToTheirRows : Prop :=
  decodeTableWord 8 0x0 = some (.extractBits 0 0 0) ∧
  decodeTableWord 8 0x2 = some (.splitWord 0 0) ∧
  decodeTableWord 8 0x9 = some (.buildInit 0 0) ∧
  decodeTableWord 8 0xD = some (.extractReplay []) ∧
  decodeTableWord 8 0xF = some (.extractVersion none) ∧
  decodeTableWord 56 0xF06013000407F7 = some (.uartInit 3 115200) ∧
  decodeTableWord 56 0xF06031004801F7 = some (.uartReadArm 1 200) ∧
  decodeTableWord 32 0xF0606FF7 = some (.uartFlush 15)

/-! ### The step -/

/-- A step runs the instruction its inputs present, and adds nothing around it (R5, R7, R54). -/
def Obligations.StepRunsPresentedInstruction : Prop :=
  ∀ (s : State) (i : Instr), decode s.channel s.request = .ok i → step s = exec i s

/-- A state whose inputs hold the encoding of a well-formed instruction steps as that instruction (R66, R67; log 6). -/
def Obligations.StepRunsEncodedInstruction : Prop :=
  ∀ (s : State) (i : Instr), WellFormed i = true →
    step { s with channel := (encode i).1, request := (encode i).2 } =
      exec i { s with channel := (encode i).1, request := (encode i).2 }

/-- Bytes on a wire channel that are no message of a wire row are read all the same by the channel's unit: nothing is
illegal on reading (R80). That the unit's reading operation runs there is the model's choice (log 9), and so is that the
parser's channel takes the message as present whatever `IN_VALID` holds (log 20). -/
def Obligations.StepReadsBytesOfNoWireRow : Prop :=
  ∀ (s : State) (e : DecodeError), decode s.channel s.request = .error e →
    (s.channel = .sysexFramer → step s = exec (.extractFirst s.request.inp) s) ∧
    (s.channel = .replayExtractor → step s = exec (.extractReplay s.request.inp) s) ∧
    (s.channel = .handshakeParser .version → step s = exec (.extractVersion (some s.request.inp)) s) ∧
    (∀ startIndex : Value, s.channel = .handshakeParser (.name startIndex) →
      step s = exec (.extractName startIndex (some s.request.inp)) s) ∧
    s.channel ≠ .request

/-- Every transaction is answered where MAX_LEN is unbounded: an operation is a total function (R7), and it is answered again
after any answer (R251). -/
def Obligations.EveryTransactionIsAnswered : Prop :=
  ∀ s : State, s.params.maxLen = none →
    ∃ t r, step s = .next t ∧ t.response = some r ∧ ∃ u, step t = .next u

/-- An instruction responds exactly when its input is accepted, and is otherwise refused as too long; a step responds
exactly when its inputs present an accepted instruction (R7, R9; log 5). -/
def Obligations.RespondsExactlyWhenAccepted : Prop :=
  (∀ (i : Instr) (s : State), accepted s.params i = true → ∃ t, exec i s = .next t) ∧
  (∀ (i : Instr) (s : State), accepted s.params i = false → exec i s = .refused .inputTooLong) ∧
  (∀ s : State, SafeStep s ↔ accepted s.params (presented s.channel s.request) = true)

/-! ### BitField and SevenBitCodec -/

/-- R101, the law of EXTRACT_BITS. -/
def Obligations.ExtractBitsLaw : Prop :=
  ∀ (value : Value) (startBit endBit : Byte) (s : State),
    (startBit.toNat ≤ endBit.toNat ∧ endBit.toNat ≤ startBit.toNat + 7 →
      ∃ r : Byte,
        exec (.extractBits value startBit endBit) s = okWith s { r := some (r.setWidth 16) } ∧
        r.toNat < 2 ^ (endBit.toNat - startBit.toNat + 1) ∧
        ∀ j, j ≤ endBit.toNat - startBit.toNat → r.getLsbD j = value.getLsbD (startBit.toNat + j)) ∧
    (¬(startBit.toNat ≤ endBit.toNat ∧ endBit.toNat ≤ startBit.toNat + 7) →
      exec (.extractBits value startBit endBit) s = endsWith s .rangeError)

/-- R110: `R[7:0]` is bits 0 to 6, `R2` is bit 7; never an error. -/
def Obligations.SplitByteGivesLowAndHighUnit : Prop :=
  ∀ (b : Byte) (s : State),
    exec (.splitByte b) s =
      okWith s { r := some (BitVec.ofNat 16 (b.toNat % 128)), r2 := some (byte (b.toNat / 128)) }

/-- R111: `bitsWidth / 7` groups, least significant first; IllegalOp for any other width. That widths 7 and 14
give one and two groups, and IllegalOp, are the spec's own decisions D8 and D5 (log 13). -/
def Obligations.SplitWordGivesGroups : Prop :=
  ∀ (v : Value) (w : Byte) (s : State),
    ((w.toNat = 7 ∨ w.toNat = 14 ∨ w.toNat = 21) →
      exec (.splitWord v w) s =
        okWith s { out := some ((List.range (w.toNat / 7)).map fun k => byte (v.toNat / 2 ^ (7 * k) % 128)) }) ∧
    (¬(w.toNat = 7 ∨ w.toNat = 14 ∨ w.toNat = 21) → exec (.splitWord v w) s = endsWith s .illegalOp)

/-- R112: the low 8 bits of the sum, the low unit not masked, bit 0 of the high unit alone. That a sum above
255 keeps its low 8 bits is the spec's own decision D9 (log 13). -/
def Obligations.JoinPairGivesTruncatedSum : Prop :=
  ∀ (low7 high1 : Byte) (s : State),
    exec (.joinPair low7 high1) s =
      okWith s { r := some (BitVec.ofNat 16 ((low7.toNat + 128 * (high1.toNat % 2)) % 256)) }

/-- R113: the exact sum, the low unit not masked, 7 bits of the high unit; at most 0x407F. -/
def Obligations.JoinPairWordGivesExactSum : Prop :=
  ∀ (low7 high7 : Byte) (s : State),
    ∃ w : BitVec 16,
      exec (.joinPairWord low7 high7) s = okWith s { r := some w } ∧
      w.toNat = low7.toNat + 128 * (high7.toNat % 128) ∧ w.toNat ≤ 0x407F

/-- R114: splitting then joining returns the value; the converse holds only for a 7-bit low and a 1-bit high unit.
The clause on 14 bits is derived in R114 c and rests on decision D8, the converse on D9 (log 13). -/
def Obligations.SplitThenJoinReturnsValue : Prop :=
  (∀ b : Byte, ∃ l h, splitByte b = .ok (l, h) ∧ joinPair l h = b) ∧
  (∀ v : Value, v.toNat < 2 ^ 21 → ∃ g0 g1 g2, splitWord v 21 = .ok [g0, g1, g2] ∧
    g0.toNat + g1.toNat * 2 ^ 7 + g2.toNat * 2 ^ 14 = v.toNat) ∧
  (∀ v : Value, v.toNat < 0x4000 → ∃ g0 g1 w, splitWord v 14 = .ok [g0, g1] ∧ joinPairWord g0 g1 = .ok w ∧
    w.toNat = v.toNat) ∧
  (∀ l h : Byte, splitByte (joinPair l h) = .ok (l, h) ↔ l.toNat < 0x80 ∧ h.toNat < 2)

/-- R44, derived there from R111 and R113: a value seen at two widths (decision D8, log 13). -/
def Obligations.UnitsAgreeAcrossWidths : Prop :=
  (∀ v : Value, v.toNat < 0x4000 → ∃ g0 g1 w, splitWord v 14 = .ok [g0, g1] ∧ joinPairWord g0 g1 = .ok w ∧
    w.toNat = v.toNat) ∧
  (∀ b : Byte, ∃ l h, splitByte b = .ok (l, h) ∧ joinPairWord l h = .ok (b.setWidth 16) ∧
    splitWord (b.setWidth 32) 14 = .ok [l, h]) ∧
  (∀ v : Value, ∃ g0 g1, splitWord v 14 = .ok [g0, g1] ∧ (joinPair g0 g1).toNat = v.toNat % 256)

/-! ### SysexFramer -/

/-- R130: the payload between the markers, or FormatError for a byte of 0x80 or above. -/
def Obligations.FrameWrapsUnitsOnly : Prop :=
  ∀ (payload : List Byte) (s : State), fits s.params payload = true →
    ((∀ b ∈ payload, b.toNat < 0x80) →
      exec (.frame payload) s = okWith s { out := some ([0xF0#8] ++ payload ++ [0xF7#8]) }) ∧
    ((∃ b ∈ payload, 0x80 ≤ b.toNat) → exec (.frame payload) s = endsWith s .formatError)

/-- R131: FRAME of the code before the payload, errors included. -/
def Obligations.FrameWithCodeWrapsCodeFirst : Prop :=
  ∀ (payload : List Byte) (code : Byte) (s : State), fits s.params payload = true →
    ((code.toNat < 0x80 ∧ ∀ b ∈ payload, b.toNat < 0x80) →
      exec (.frameWithCode payload code) s = okWith s { out := some ([0xF0#8, code] ++ payload ++ [0xF7#8]) }) ∧
    ((0x80 ≤ code.toNat ∨ ∃ b ∈ payload, 0x80 ≤ b.toNat) →
      exec (.frameWithCode payload code) s = endsWith s .formatError)

/-- R132: the bytes between the first start marker and the first end marker after it, else `none`. -/
def Obligations.ExtractFirstGivesFirstPayload : Prop :=
  ∀ (raw : List Byte) (s : State), fits s.params raw = true →
    (∃ pre p post, raw = pre ++ 0xF0#8 :: (p ++ 0xF7#8 :: post) ∧ 0xF0#8 ∉ pre ∧ 0xF7#8 ∉ p ∧
      exec (.extractFirst raw) s = okWith s { out := some p }) ∨
    ((∀ i j : Nat, i < j → raw[i]? = some 0xF0#8 → raw[j]? ≠ some 0xF7#8) ∧
      exec (.extractFirst raw) s = endsWith s .none)

/-- R133: extracting what was framed returns the payload, also between other bytes; derived there from R130 to
R132. -/
def Obligations.ExtractFirstOfFrameReturnsPayload : Prop :=
  (∀ p : List Byte, (∀ b ∈ p, b.toNat < 0x80) → ∃ f, frame p = .ok f ∧ extractFirst f = .ok p ∧
    ∀ pre post : List Byte, 0xF0#8 ∉ pre → extractFirst (pre ++ f ++ post) = .ok p) ∧
  (∀ (p : List Byte) (c : Byte), (∀ b ∈ p, b.toNat < 0x80) → c.toNat < 0x80 →
    ∃ f, frameWithCode p c = .ok f ∧ extractFirst f = .ok (c :: p))

/-- R132 h: growing the buffer leaves an `ok` answer unchanged; derived there. -/
def Obligations.ExtractFirstStableAsBufferGrows : Prop :=
  ∀ raw more p : List Byte, extractFirst raw = .ok p → extractFirst (raw ++ more) = .ok p

/-! ### UartCommandBuilder -/

/-- R150: the bitwise or, which is the sum; FormatError for a non-zero low nibble or a port of 16 or above. -/
def Obligations.MakeCodeFusesCodeAndPort : Prop :=
  ∀ (code port : Byte) (s : State),
    (code.toNat % 16 = 0 ∧ port.toNat < 16 →
      code.toNat + port.toNat < 256 ∧ (code ||| port).toNat = code.toNat + port.toNat ∧
      exec (.makeCode code port) s = okWith s { r := some ((code ||| port).setWidth 16) }) ∧
    (¬(code.toNat % 16 = 0 ∧ port.toNat < 16) → exec (.makeCode code port) s = endsWith s .formatError)

/-- R152: the INIT frame `F0 60 1p g0 g1 g2 F7`; FormatError for bit 31 set or a port of 16 or above. That
bit 31 set is the source's "negative" is the spec's own decision D7 (log 13). -/
def Obligations.BuildInitGivesInitFrame : Prop :=
  ∀ (port : Byte) (baud : Value) (s : State),
    (baud.toNat < 2 ^ 31 ∧ port.toNat < 16 →
      exec (.buildInit port baud) s =
        okWith s { out := some [0xF0#8, 0x60#8, byte (0x10 + port.toNat), byte (baud.toNat % 128),
          byte (baud.toNat / 2 ^ 7 % 128), byte (baud.toNat / 2 ^ 14 % 128), 0xF7#8] }) ∧
    (¬(baud.toNat < 2 ^ 31 ∧ port.toNat < 16) → exec (.buildInit port baud) s = endsWith s .formatError)

/-- R153: the READ_ARM frame `F0 60 3p 00 lo hi F7`; FormatError for 0x4000 or above or a port of 16 or above. -/
def Obligations.BuildArmReadGivesReadArmFrame : Prop :=
  ∀ (port : Byte) (maxBytes : BitVec 16) (s : State),
    (maxBytes.toNat < 0x4000 ∧ port.toNat < 16 →
      exec (.buildArmRead port maxBytes) s =
        okWith s { out := some [0xF0#8, 0x60#8, byte (0x30 + port.toNat), 0x00#8, byte (maxBytes.toNat % 128),
          byte (maxBytes.toNat / 128), 0xF7#8] }) ∧
    (¬(maxBytes.toNat < 0x4000 ∧ port.toNat < 16) →
      exec (.buildArmRead port maxBytes) s = endsWith s .formatError)

/-- R154: the WRITE frame, `4 + 2n` bytes, each data byte as its pair; FormatError for a port of 16 or above. -/
def Obligations.BuildWriteGivesWriteFrame : Prop :=
  ∀ (port : Byte) (data : List Byte) (s : State), fits s.params data = true →
    (port.toNat < 16 →
      ∃ out, exec (.buildWrite port data) s = okWith s { out := some out } ∧
        out.length = 4 + 2 * data.length ∧
        out.take 3 = [0xF0#8, 0x60#8, byte (0x20 + port.toNat)] ∧
        out[3 + 2 * data.length]? = some 0xF7#8 ∧
        ∀ (i : Nat) (b : Byte), data[i]? = some b →
          out[3 + 2 * i]? = some (byte (b.toNat % 128)) ∧ out[4 + 2 * i]? = some (byte (b.toNat / 128))) ∧
    (16 ≤ port.toNat → exec (.buildWrite port data) s = endsWith s .formatError)

/-- R155: the FLUSH frame `F0 60 6p F7`; FormatError for a port of 16 or above. -/
def Obligations.BuildFlushGivesFlushFrame : Prop :=
  ∀ (port : Byte) (s : State),
    (port.toNat < 16 →
      exec (.buildFlush port) s = okWith s { out := some [0xF0#8, 0x60#8, byte (0x60 + port.toNat), 0xF7#8] }) ∧
    (16 ≤ port.toNat → exec (.buildFlush port) s = endsWith s .formatError)

/-- What the builders build is the encoding of their wire rows, and is read back as them (R71 to R74, R84). -/
def Obligations.BuiltFramesReadBackAsTheirRows : Prop :=
  ∀ (port : Byte) (q : Request), port.toNat < 16 →
    (∀ baud : Value, baud.toNat < 2 ^ 31 → ∃ f, buildInit port baud = .ok f ∧
      encodeBytes (.uartInit (port.setWidth 4) (baud.setWidth 21)) = f ∧
      decode .sysexFramer { q with inp := f } = .ok (.uartInit (port.setWidth 4) (baud.setWidth 21))) ∧
    (∀ n : BitVec 16, n.toNat < 0x4000 → ∃ f, buildArmRead port n = .ok f ∧
      encodeBytes (.uartReadArm (port.setWidth 4) (n.setWidth 14)) = f ∧
      decode .sysexFramer { q with inp := f } = .ok (.uartReadArm (port.setWidth 4) (n.setWidth 14))) ∧
    (∀ data : List Byte, ∃ f, buildWrite port data = .ok f ∧
      encodeBytes (.uartWrite (port.setWidth 4) data) = f ∧
      decode .sysexFramer { q with inp := f } = .ok (.uartWrite (port.setWidth 4) data)) ∧
    (∃ f, buildFlush port = .ok f ∧
      encodeBytes (.uartFlush (port.setWidth 4)) = f ∧
      decode .sysexFramer { q with inp := f } = .ok (.uartFlush (port.setWidth 4)))

/-- R157: a built command frame has one start marker, at index 0, and one end marker, at the last index, and EXTRACT_FIRST
of it returns the payload, which starts with the selector; derived there. -/
def Obligations.BuiltFrameHoldsOneMarkerPair : Prop :=
  ∀ f : List Byte,
    ((∃ port baud, buildInit port baud = .ok f) ∨ (∃ port n, buildArmRead port n = .ok f) ∨
      (∃ port data, buildWrite port data = .ok f) ∨ (∃ port, buildFlush port = .ok f)) →
    ∃ p : List Byte, f = [0xF0#8] ++ (0x60#8 :: p) ++ [0xF7#8] ∧ f.count 0xF0#8 = 1 ∧ f.count 0xF7#8 = 1 ∧
      extractFirst f = .ok (0x60#8 :: p)

/-! ### ReplayExtractor -/

/-- R180 with the readings of R181 to R184, on every buffer: each buffer is a stream of frames with gaps and a tail, and the
result is JOIN_PAIR over the units of all data areas, a data area being a frame's body without its first two bytes. R181 to
R184 are the spec's own decisions D10 to D13 (log 13). -/
def Obligations.ReplayJoinsUnitsOfAllFrames : Prop :=
  (∀ raw : List Byte, ∃ frames tail, raw = stream frames tail ∧ streamParts frames tail) ∧
  (∀ (frames : List (List Byte × List Byte)) (tail : List Byte) (s : State),
    streamParts frames tail → fits s.params (stream frames tail) = true →
    ∃ out, exec (.extractReplay (stream frames tail)) s = okWith s { out := some out } ∧
      joinsPairs (frames.flatMap fun f => f.2.drop 2) out)

/-- R186 a, the round trip of the source: replaying a built WRITE frame returns the data written; derived there. -/
def Obligations.ReplayOfBuiltWriteReturnsData : Prop :=
  ∀ (port : Byte) (data : List Byte) (s : State), port.toNat < 16 → fits s.params data = true →
    ∃ f, exec (.buildWrite port data) s = okWith s { out := some f } ∧
      (fits s.params f = true → exec (.extractReplay f) s = okWith s { out := some data })

/-- R186 c: the output is at most half of what is left after one frame's four fixed bytes; derived there. -/
def Obligations.ReplayOutputIsBounded : Prop :=
  ∀ raw : List Byte,
    (4 ≤ raw.length → (extractReplay raw).length ≤ (raw.length - 4) / 2) ∧
    (raw.length < 4 → extractReplay raw = [])

/-! ### HandshakeParser -/

/-- R200: one exact code per pair from the start index; `none` for an absent or short message or an odd remainder. That codes are
kept exactly at 9 bits and that `IN_VALID` 0 is an absent message are the spec's own decisions D17 and D18 (log 13). -/
def Obligations.ExtractNameGivesCodesOfPairs : Prop :=
  ∀ (startIndex : Value) (s : State), s.params.hasHsp = true →
    exec (.extractName startIndex none) s = endsWith s .none ∧
    ∀ m : List Byte, fits s.params m = true →
      ((m.length < startIndex.toNat ∨ (m.length - startIndex.toNat) % 2 = 1) →
        exec (.extractName startIndex (some m)) s = endsWith s .none) ∧
      (¬(m.length < startIndex.toNat ∨ (m.length - startIndex.toNat) % 2 = 1) →
        ∃ codes, exec (.extractName startIndex (some m)) s = okWith s { name := some codes } ∧
          namesPairs (m.drop startIndex.toNat) codes)

/-- R201: `msg[1]` in `R`, `msg[2]` in `R2`, unchanged; `none` for an absent message or one shorter than 3.
The operation is the spec's own decision D16 (log 13). -/
def Obligations.ExtractVersionGivesTwoBytes : Prop :=
  ∀ s : State, s.params.hasHsp = true →
    exec (.extractVersion none) s = endsWith s .none ∧
    ∀ m : List Byte, fits s.params m = true →
      (m.length < 3 → exec (.extractVersion (some m)) s = endsWith s .none) ∧
      (∀ major minorRaw : Byte, m[1]? = some major → m[2]? = some minorRaw →
        exec (.extractVersion (some m)) s = okWith s { r := some (major.setWidth 16), r2 := some minorRaw })

/-- R80, R225: without HAS_HSP the two operations are reserved and give IllegalOp, whatever their operands (the spec's
decision D5). That the handshake message does so too is the model's choice (log 8), and so is that an input longer than a
finite MAX_LEN gets IllegalOp here and is not refused (log 16). -/
def Obligations.HandshakeOpsIllegalWithoutUnit : Prop :=
  ∀ (i : Instr) (s : State), ofHandshakeParser i = true → s.params.hasHsp = false →
    exec i s = endsWith s .illegalOp

/-! ### Wire rows: the model's reading of R65 (logs 7 and 8) -/

/-- A frame on the wire is read as its payload (R69, R132; that the row runs so is log 7). -/
def Obligations.PlainFrameIsReadAsItsPayload : Prop :=
  ∀ (payload : List Byte) (s : State), (∀ b ∈ payload, b.toNat < 0x80) →
    fits s.params ([0xF0#8] ++ payload ++ [0xF7#8]) = true →
    exec (.wireFrame payload) s = okWith s { out := some payload }

/-- A UART command frame on the wire is read as selector, port-fused byte, parameters (R70 to R74, R157; log 7). -/
def Obligations.UartFramesAreReadAsTheirPayloads : Prop :=
  ∀ (port : BitVec 4) (s : State),
    (∀ (code : SubCode) (params : List Byte), (∀ b ∈ params, b.toNat < 0x80) →
      accepted s.params (.uartCommand code port params) = true →
      exec (.uartCommand code port params) s =
        okWith s { out := some (0x60#8 :: byte (codeValue code + port.toNat) :: params) }) ∧
    (∀ baud : BitVec 21, accepted s.params (.uartInit port baud) = true →
      exec (.uartInit port baud) s =
        okWith s { out := some [0x60#8, byte (0x10 + port.toNat), byte (baud.toNat % 128),
          byte (baud.toNat / 2 ^ 7 % 128), byte (baud.toNat / 2 ^ 14)] }) ∧
    (∀ n : BitVec 14, accepted s.params (.uartReadArm port n) = true →
      exec (.uartReadArm port n) s =
        okWith s { out := some [0x60#8, byte (0x30 + port.toNat), 0x00#8, byte (n.toNat % 128), byte (n.toNat / 128)] }) ∧
    (∀ data : List Byte, accepted s.params (.uartWrite port data) = true →
      exec (.uartWrite port data) s =
        okWith s { out := some (0x60#8 :: byte (0x20 + port.toNat) ::
          data.flatMap fun b => [byte (b.toNat % 128), byte (b.toNat / 128)]) }) ∧
    (accepted s.params (.uartFlush port) = true →
      exec (.uartFlush port) s = okWith s { out := some [0x60#8, byte (0x60 + port.toNat)] })

/-- A replay frame on the wire is read as JOIN_PAIR over its units, the two skipped bytes not read (R75, R180; log 7). -/
def Obligations.ReplayFrameIsReadAsJoinedUnits : Prop :=
  ∀ (x1 x2 : Byte) (units : List Byte) (s : State), x1 ≠ 0xF7#8 → x2 ≠ 0xF7#8 → 0xF7#8 ∉ units →
    fits s.params ([0xF0#8, x1, x2] ++ units ++ [0xF7#8]) = true →
    ∃ out, exec (.replayFrame x1 x2 units) s = okWith s { out := some out } ∧ joinsPairs units out

/-- A handshake message is read as its version, or as its name from a caller-given index, the operation being the one the
channel names (R76, R200, R201, R202; that the row runs as one of the two operations is the model's choice, log 8, and that
the message is present whatever `IN_VALID` holds is log 20; the two outcomes rest on decisions D16 and D17, log 13). -/
def Obligations.HandshakeMessageIsReadAsVersionOrName : Prop :=
  ∀ (x0 major minorRaw : Byte) (rest : List Byte) (s : State), s.params.hasHsp = true →
    fits s.params (x0 :: major :: minorRaw :: rest) = true →
    exec (.handshakeMsg .version x0 (major, minorRaw) rest) s =
      okWith s { r := some (major.setWidth 16), r2 := some minorRaw } ∧
    ∀ startIndex : Value,
      ((rest.length + 3 < startIndex.toNat ∨ (rest.length + 3 - startIndex.toNat) % 2 = 1) →
        exec (.handshakeMsg (.name startIndex) x0 (major, minorRaw) rest) s = endsWith s .none) ∧
      (¬(rest.length + 3 < startIndex.toNat ∨ (rest.length + 3 - startIndex.toNat) % 2 = 1) →
        ∃ codes, exec (.handshakeMsg (.name startIndex) x0 (major, minorRaw) rest) s = okWith s { name := some codes } ∧
          namesPairs ((x0 :: major :: minorRaw :: rest).drop startIndex.toNat) codes)

/-! ### The machine as a whole -/

/-- The frame of every instruction: a transaction writes the response ports and nothing else. The request ports, every
byte of the input sequence among them, the channel and the build parameters stay (R20, R26, R47). -/
def Obligations.TransactionWritesResponseOnly : Prop :=
  ∀ (i : Instr) (s t : State), exec i s = .next t →
    t.request = s.request ∧ (∀ k : Nat, t.request.inp[k]? = s.request.inp[k]?) ∧
    t.channel = s.channel ∧ t.params = s.params ∧ t.response ≠ none

/-- R20: the same operands always give the same outcome, whatever ran before. -/
def Obligations.OutcomeIsFunctionOfOperands : Prop :=
  (∀ (i : Instr) (s s' t : State), s.params = s'.params → exec i s = .next t →
    ∃ t', exec i s' = .next t' ∧ t'.response = t.response) ∧
  (∀ s s' t : State, s.params = s'.params → s.channel = s'.channel → s.request = s'.request → step s = .next t →
    ∃ t', step s' = .next t' ∧ t'.response = t.response)

/-- R47: repeating a transaction with the same operands gives the same outcome: a step after a step changes nothing. -/
def Obligations.RepeatedTransactionChangesNothing : Prop :=
  ∀ s t : State, step s = .next t → step t = .next t

/-- R231: after any outcome, errors among them, the next request is served like any other: it gives what it would have given
had the earlier transaction not run. -/
def Obligations.NextRequestServedLikeAnyOther : Prop :=
  ∀ (s t : State) (q : Request) (ch : Channel), step s = .next t →
    step { t with request := q, channel := ch } = step { s with request := q, channel := ch }

/-- The shape of R22 is kept by every step: without status OK no result port holds a value, with it one does, and the values
keep to the ranges of R103 (R22's "no value" is the spec's decision D21; log 3). It
need not be assumed of the state before: every response is written afresh (R25). -/
def Obligations.ResponseShapeKeptByEveryStep : Prop :=
  (∀ s t : State, Inv s → step s = .next t → Inv t) ∧
  (∀ s t : State, step s = .next t → Inv t ∧ ∃ r, t.response = some r)

/-- The invariant holds after reset: no response stands on the ports (R31). -/
def Obligations.ResponseShapeHoldsAtReset : Prop := Inv State.reset

/-- R31, R9: after reset the response ports hold no value; the optional unit is present. -/
def Obligations.ResetLeavesNoResponse : Prop :=
  State.reset.response = none ∧ State.reset.params.hasHsp = true

/-- R220: the table of outcomes, each operation's status on all operands; derived there from the operation rules, and with
them it takes in the spec's own decisions D5, D7, D16 and D18 (log 13). That the absent unit answers before MAX_LEN is looked
at is the model's choice (log 16). The wire rows are not in the table. -/
def Obligations.StatusFollowsOutcomeTable : Prop :=
  ∀ (i : Instr) (s t : State) (r : Response), exec i s = .next t → t.response = some r → tabledStatus s.params i r.status

/-- R226: the status codes; 5, 6 and 7 are never produced. The numbers are the spec's own decision D4. -/
def Obligations.StatusCodesAreAssigned : Prop :=
  Status.code .ok = 0 ∧ Status.code .none = 1 ∧ Status.code .rangeError = 2 ∧ Status.code .formatError = 3 ∧
  Status.code .illegalOp = 4 ∧ ∀ st : Status, (Status.code st).toNat < 5
end

