-- ==== Sys2Proof/Laws/State.lean ====
section
/-! SUPPORT. One lemma per field for the one update of the state, and the fields of the state after reset. -/

namespace Sys2Proof.Laws

open Machine

@[simp] theorem withResponse_request (s : State) (r : Response) : (s.withResponse r).request = s.request := rfl
@[simp] theorem withResponse_channel (s : State) (r : Response) : (s.withResponse r).channel = s.channel := rfl
@[simp] theorem withResponse_params (s : State) (r : Response) : (s.withResponse r).params = s.params := rfl
@[simp] theorem withResponse_response (s : State) (r : Response) : (s.withResponse r).response = some r := rfl
@[simp] theorem withResponse_withResponse (s : State) (r r' : Response) :
    (s.withResponse r).withResponse r' = s.withResponse r' := rfl

@[simp] theorem reset_request : State.reset.request = zeroRequest := rfl
@[simp] theorem reset_channel : State.reset.channel = .request := rfl
@[simp] theorem reset_hasHsp : State.reset.params.hasHsp = true := rfl
@[simp] theorem reset_maxLen : State.reset.params.maxLen = none := rfl

end Sys2Proof.Laws
end

