-- ==== Sys2Proof/Laws/Ops.lean ====
section
/-! SUPPORT. For each shared operation, what it can do, said once. -/

namespace Sys2Proof.Laws

open Machine

section Answers

variable {α β : Type}

@[simp] theorem bind_ok (v : α) (f : α → Answer β) : (Answer.ok v).bind f = f v := rfl
@[simp] theorem bind_absent (f : α → Answer β) : (Answer.absent : Answer α).bind f = .absent := rfl
@[simp] theorem bind_error (e : Error) (f : α → Answer β) : (Answer.error e : Answer α).bind f = .error e := rfl

@[simp] theorem toOption_ok (v : α) : (Answer.ok v).toOption = some v := rfl
@[simp] theorem toOption_absent : (Answer.absent : Answer α).toOption = none := rfl
@[simp] theorem toOption_error (e : Error) : (Answer.error e : Answer α).toOption = none := rfl

/-- A sequenced outcome is a result only through a result of its first part. -/
theorem bind_eq_ok {x : Answer α} {f : α → Answer β} {v : β} (h : x.bind f = .ok v) : ∃ a, x = .ok a ∧ f a = .ok v := by
  cases x with
  | ok a => exact ⟨a, rfl, h⟩
  | absent => cases h
  | error e => cases h

end Answers

section Responding

variable {α : Type} (s : State) (result : α → Response)

@[simp] theorem respond_ok (v : α) : respond s (.ok v) result = .next (s.withResponse (result v)) := rfl
@[simp] theorem respond_absent : respond s .absent result = .next (s.withResponse (bareResponse .none)) := rfl
@[simp] theorem respond_error (e : Error) :
    respond s (.error e) result = .next (s.withResponse (bareResponse e.status)) := rfl

@[simp] theorem takeError_eq (e : Error) : takeError s e = s.withResponse (bareResponse e.status) := rfl

/-- Responding always gives a next state, and it changes the response ports alone. -/
theorem respond_cases (x : Answer α) :
    ∃ r, respond s x result = .next (s.withResponse r) ∧
      ((∃ v, x = .ok v ∧ r = result v) ∨ (x = .absent ∧ r = bareResponse .none) ∨
        (∃ e, x = .error e ∧ r = bareResponse e.status)) := by
  cases x with
  | ok v => exact ⟨_, rfl, .inl ⟨v, rfl, rfl⟩⟩
  | absent => exact ⟨_, rfl, .inr (.inl ⟨rfl, rfl⟩)⟩
  | error e => exact ⟨_, rfl, .inr (.inr ⟨e, rfl, rfl⟩)⟩

end Responding

section Accepting

variable {s : State} {run : Host.Outcome State Fault Refusal}

theorem accept_of_fits {input : List Byte} (h : fits s.params input = true) : accept s input run = run := by
  simp [accept, h]

theorem accept_of_not_fits {input : List Byte} (h : fits s.params input = false) :
    accept s input run = .refused .inputTooLong := by
  simp [accept, h]

/-- An accepted sequence that gives a next state fitted, and the state is the run's. -/
theorem accept_next {input : List Byte} {t : State} (h : accept s input run = .next t) :
    fits s.params input = true ∧ run = .next t := by
  cases hf : fits s.params input with
  | true => exact ⟨rfl, by simpa [accept, hf] using h⟩
  | false => simp [accept, hf] at h

theorem acceptMsg_none : acceptMsg s none run = run := rfl

theorem acceptMsg_some (m : List Byte) : acceptMsg s (some m) run = accept s m run := rfl

theorem needHsp_of_present (h : s.params.hasHsp = true) : needHsp s run = run := by simp [needHsp, h]

theorem needHsp_of_absent (h : s.params.hasHsp = false) :
    needHsp s run = .next (s.withResponse (bareResponse .illegalOp)) := by
  simp [needHsp, h]; rfl

/-- An operation of the optional unit gives a next state by running, or by IllegalOp where the unit is absent. -/
theorem needHsp_next {t : State} (h : needHsp s run = .next t) :
    (s.params.hasHsp = true ∧ run = .next t) ∨
      (s.params.hasHsp = false ∧ t = s.withResponse (bareResponse .illegalOp)) := by
  cases hp : s.params.hasHsp with
  | true => exact .inl ⟨rfl, by rwa [needHsp_of_present hp] at h⟩
  | false => rw [needHsp_of_absent hp] at h; cases h; exact .inr ⟨rfl, rfl⟩

end Accepting

@[simp] theorem fits_unbounded (hasHsp : Bool) (input : List Byte) :
    fits { hasHsp := hasHsp, maxLen := none } input = true := rfl

@[simp] theorem fits_bounded (hasHsp : Bool) (n : Nat) (input : List Byte) :
    fits { hasHsp := hasHsp, maxLen := some n } input = true ↔ input.length ≤ n := by
  simp [fits]

end Sys2Proof.Laws
end

