-- ==== Sys2Proof/Laws/Seq.lean ====
section
/-! SUPPORT. What the primitives of R12 do: searching, slicing, and taking bits. -/

namespace Sys2Proof.Laws

open Machine

/-- `find` gives the least index at or after the start that holds the byte. -/
theorem find_eq_some {s : List Byte} {b : Byte} {k i : Nat} (h : find s b k = some i) :
    k ≤ i ∧ s[i]? = some b ∧ ∀ j, k ≤ j → j < i → s[j]? ≠ some b := by
  induction s generalizing k i with
  | nil => simp [find] at h
  | cons x xs ih =>
    cases k with
    | zero =>
      by_cases hx : x = b
      · simp only [find, hx, if_true, Option.some.injEq] at h
        subst h
        simp [hx]
      · simp only [find, hx, if_false, Option.map_eq_some_iff] at h
        obtain ⟨i', hi', rfl⟩ := h
        obtain ⟨-, h2, h3⟩ := ih hi'
        refine ⟨by omega, by simpa using h2, fun j _ hj => ?_⟩
        cases j with
        | zero => simpa using hx
        | succ j => simpa using h3 j (by omega) (by omega)
    | succ k =>
      simp only [find, Option.map_eq_some_iff] at h
      obtain ⟨i', hi', rfl⟩ := h
      obtain ⟨h1, h2, h3⟩ := ih hi'
      refine ⟨by omega, by simpa using h2, fun j hk hj => ?_⟩
      cases j with
      | zero => omega
      | succ j => simpa using h3 j (by omega) (by omega)

/-- `find` gives nothing exactly where no index at or after the start holds the byte. -/
theorem find_eq_none {s : List Byte} {b : Byte} {k : Nat} (h : find s b k = none) : ∀ j, k ≤ j → s[j]? ≠ some b := by
  induction s generalizing k with
  | nil => simp
  | cons x xs ih =>
    intro j hj
    cases k with
    | zero =>
      by_cases hx : x = b
      · simp [find, hx] at h
      · simp only [find, hx, if_false, Option.map_eq_none_iff] at h
        cases j with
        | zero => simpa using hx
        | succ j => simpa using ih h j (by omega)
    | succ k =>
      simp only [find, Option.map_eq_none_iff] at h
      cases j with
      | zero => omega
      | succ j => simpa using ih h j (by omega)

/-- An index `find` gives lies inside the sequence. -/
theorem find_lt_length {s : List Byte} {b : Byte} {k i : Nat} (h : find s b k = some i) : i < s.length := by
  obtain ⟨-, h2, -⟩ := find_eq_some h
  exact (List.getElem?_eq_some_iff.mp h2).1

/-- Searching past a known part of the sequence. -/
theorem find_append_left {pre rest : List Byte} {b : Byte} {k : Nat} :
    find (pre ++ rest) b (pre.length + k) = (find rest b k).map (· + pre.length) := by
  induction pre with
  | nil => simp
  | cons x xs ih =>
    rw [List.length_cons, show xs.length + 1 + k = (xs.length + k) + 1 by omega, List.cons_append, find, ih]
    simp [Option.map_map, Function.comp_def, Nat.add_assoc]

/-- The first occurrence after a part that does not hold the byte. -/
theorem find_first {pre rest : List Byte} {b : Byte} (h : b ∉ pre) :
    find (pre ++ b :: rest) b 0 = some pre.length := by
  induction pre with
  | nil => simp [find]
  | cons x xs ih =>
    simp only [List.mem_cons, not_or] at h
    simp [find, Ne.symm h.1, ih h.2]

/-- Nothing is found in a sequence that does not hold the byte. -/
theorem find_absent {s : List Byte} {b : Byte} (h : b ∉ s) (k : Nat) : find s b k = none := by
  induction s generalizing k with
  | nil => rfl
  | cons x xs ih =>
    simp only [List.mem_cons, not_or] at h
    cases k with
    | zero => simp [find, Ne.symm h.1, ih h.2]
    | succ k => simp [find, ih h.2]

/-- A slice between two known parts. -/
theorem slice_append {pre mid post : List Byte} {i j : Nat} (hi : i = pre.length) (hj : j = pre.length + mid.length) :
    slice (pre ++ (mid ++ post)) i j = mid := by
  subst hi hj
  simp [slice, List.take_append]

@[simp] theorem slice_length (s : List Byte) (i j : Nat) : (slice s i j).length = min j s.length - i := by
  simp [slice]

/-- A unit is a byte below 0x80. -/
@[simp] theorem isUnit_iff {b : Byte} : isUnit b = true ↔ b.toNat < 0x80 := by simp [isUnit]

/-- A sequence of units holds only bytes below 0x80. -/
@[simp] theorem unitsOnly_iff {p : List Byte} : unitsOnly p = true ↔ ∀ b ∈ p, b.toNat < 0x80 := by
  simp [unitsOnly, isUnit]

theorem bits_lt (v lo n : Nat) : bits v lo n < 2 ^ n := Nat.mod_lt _ (by positivity)

/-- Bit `j` of the bits taken from `lo` is bit `lo + j` of the value. -/
theorem bits_testBit (v lo n j : Nat) : (bits v lo n).testBit j = (decide (j < n) && v.testBit (lo + j)) := by
  simp [bits, Nat.testBit_mod_two_pow, Nat.testBit_shiftRight]

/-- A legal range gives its bits (R100). -/
theorem extractBits_legal {value startBit endBit : Nat} (h1 : startBit ≤ endBit) (h2 : endBit ≤ startBit + 7) :
    extractBits value startBit endBit = .ok (BitVec.ofNat 8 (bits value startBit (endBit - startBit + 1))) := by
  rw [extractBits, if_neg (by omega), if_neg (by omega)]

/-- Any other range is an error (R100). -/
theorem extractBits_illegal {value startBit endBit : Nat} (h : endBit < startBit ∨ startBit + 7 < endBit) :
    extractBits value startBit endBit = .error .rangeError := by
  rw [extractBits]
  split_ifs <;> first | rfl | omega

end Sys2Proof.Laws
end

