-- ==== Sys2Proof/Laws/Codec.lean ====
section
/-! SUPPORT. What the shared operations of the codec and the builders compute, said once each. -/

namespace Sys2Proof.Laws

open Machine

/-- A legal range as arithmetic on the value. -/
theorem extractBits_group (v k : Nat) : extractBits v k (k + 6) = .ok (BitVec.ofNat 8 (v / 2 ^ k % 128)) := by
  rw [extractBits_legal (by omega) (by omega), show k + 6 - k + 1 = 7 by omega]
  simp [bits, Nat.shiftRight_eq_div_pow]

/-- SPLIT_BYTE never fails: quotient and remainder by 128 (R110). -/
theorem splitByte_eq (b : Byte) :
    splitByte b = .ok (BitVec.ofNat 8 (b.toNat % 128), BitVec.ofNat 8 (b.toNat / 128)) := by
  have hb := b.isLt
  have h1 : extractBits b.toNat 7 7 = .ok (BitVec.ofNat 8 (b.toNat / 128)) := by
    rw [extractBits_legal (by omega) (by omega)]
    simp only [bits, Nat.shiftRight_eq_div_pow, Nat.sub_self, Nat.zero_add, Nat.pow_one]
    rw [Nat.mod_eq_of_lt (by omega)]
  have h0 := extractBits_group b.toNat 0
  simp only [Nat.zero_add, pow_zero, Nat.div_one] at h0
  simp [splitByte, h0, h1]

/-- The groups never fail: digits to base 128, least significant first (R41, R111). -/
theorem groups_eq (v : Value) (k n : Nat) :
    groups v k n = .ok ((List.range n).map fun j => BitVec.ofNat 8 (v.toNat / 2 ^ (7 * (k + j)) % 128)) := by
  induction n generalizing k with
  | zero => rfl
  | succ n ih =>
    rw [groups, extractBits_group, bind_ok, ih, bind_ok, List.range_succ_eq_map]
    simp [Function.comp_def, Nat.add_comm, Nat.add_left_comm]

/-- The pair's sum in arithmetic (R112). -/
theorem pairSum_eq (l h : Byte) : pairSum l h = l.toNat + 128 * (h.toNat % 2) := by
  simp [pairSum, Nat.and_one_is_mod, Nat.shiftLeft_eq, Nat.mul_comm]

/-- The pair's sum is below 384 (R103). -/
theorem pairSum_lt (l h : Byte) : pairSum l h < 384 := by
  have := l.isLt
  rw [pairSum_eq]; omega

/-- Packing never fails: the pairs in order (R154). -/
theorem packBytes_eq (data : List Byte) :
    packBytes data =
      .ok (data.flatMap fun b => [BitVec.ofNat 8 (b.toNat % 128), BitVec.ofNat 8 (b.toNat / 128)]) := by
  induction data with
  | nil => rfl
  | cons b bs ih => simp [packBytes, splitByte_eq, ih]

/-- FRAME of a 7-bit-clean payload (R130). -/
theorem frame_of_units {p : List Byte} (h : ∀ b ∈ p, b.toNat < 0x80) : frame p = .ok (layFrame p) := by
  rw [frame, if_pos (unitsOnly_iff.mpr h)]; rfl

/-- FRAME of any other payload (R130). -/
theorem frame_of_high {p : List Byte} (h : ∃ b ∈ p, 0x80 ≤ b.toNat) : frame p = .error .formatError := by
  obtain ⟨b, hb, hlt⟩ := h
  rw [frame, if_neg]
  rw [unitsOnly_iff]
  exact fun hall => absurd (hall b hb) (by omega)

/-- MAKE_CODE of a legal code and port (R150). -/
theorem makeCode_legal {code port : Byte} (hc : code.toNat % 16 = 0) (hp : port.toNat < 16) :
    makeCode code port = .ok (code ||| port) := by
  rw [makeCode, if_neg (by omega), if_neg (by simp [Config.portLimit]; omega)]

/-- MAKE_CODE of any other code or port (R150). -/
theorem makeCode_illegal {code port : Byte} (h : ¬(code.toNat % 16 = 0 ∧ port.toNat < 16)) :
    makeCode code port = .error .formatError := by
  rw [makeCode]
  by_cases hc : code.toNat % 16 = 0
  · rw [if_neg (by omega), if_pos (by simp [Config.portLimit]; omega)]
  · rw [if_pos hc]

/-- Code and port have no bit in common, so their fusion is their sum (R77). -/
theorem fused_toNat {code port : Byte} (hc : code.toNat % 16 = 0) (hp : port.toNat < 16) :
    (code ||| port).toNat = code.toNat + port.toNat := by
  have h16 : code.toNat = 16 * (code.toNat / 16) := by omega
  rw [BitVec.toNat_or, h16]
  exact (Nat.two_pow_add_eq_or_of_lt (i := 4) (by simpa using hp) _).symm

/-- The common wrapper: a legal port and parameters that are units give the frame under the selector (R156). -/
theorem buildCommand_legal {code port : Byte} {ps : List Byte} (hc : code.toNat % 16 = 0) (hlt : code.toNat < 0x80)
    (hp : port.toNat < 16) (hps : ∀ b ∈ ps, b.toNat < 0x80) :
    buildCommand code port (.ok ps) = .ok (layFrame (Config.selUart :: (code ||| port) :: ps)) := by
  rw [buildCommand, makeCode_legal hc hp, bind_ok, bind_ok, frameWithCode]
  apply frame_of_units
  intro b hb
  rcases List.mem_cons.mp hb with rfl | hb
  · decide
  rcases List.mem_cons.mp hb with rfl | hb
  · rw [fused_toNat hc hp]; omega
  · exact hps b hb

/-- The common wrapper with an illegal port (R150, R230). -/
theorem buildCommand_illegal {code port : Byte} {ps : Answer (List Byte)} (hp : 16 ≤ port.toNat) :
    buildCommand code port ps = .error .formatError := by
  rw [buildCommand, makeCode_illegal (by omega), bind_error]

end Sys2Proof.Laws
end

