-- ==== Sys2Proof/Laws/Framer.lean ====
section
/-! SUPPORT. What EXTRACT_FIRST does on every shape of a buffer, said once. -/

namespace Sys2Proof.Laws

open Machine

/-- A sequence does not hold the byte, or splits at its first occurrence. -/
theorem split_at_first (b : Byte) (s : List Byte) : b ∉ s ∨ ∃ pre post, s = pre ++ b :: post ∧ b ∉ pre := by
  by_cases h : b ∈ s
  · exact .inr (List.eq_append_cons_of_mem h)
  · exact .inl h

/-- A sequence of units holds no marker (R50). -/
theorem units_no_marker {p : List Byte} (h : ∀ b ∈ p, b.toNat < 0x80) :
    Config.endMarker ∉ p ∧ Config.startMarker ∉ p := by
  constructor <;> intro hm <;> have := h _ hm <;> simp at this

/-- Finding the first end marker from a start marker on. -/
theorem find_end_from_start {pre body post : List Byte} (h : Config.endMarker ∉ body) :
    find (pre ++ Config.startMarker :: (body ++ Config.endMarker :: post)) Config.endMarker pre.length =
      some (pre.length + (body.length + 1)) := by
  have h0 : Config.endMarker ∉ Config.startMarker :: body := List.not_mem_cons_of_ne_of_not_mem (by decide) h
  have := find_append_left (pre := pre) (rest := (Config.startMarker :: body) ++ Config.endMarker :: post)
    (b := Config.endMarker) (k := 0)
  rw [find_first h0] at this
  simpa [Nat.add_comm] using this

/-- No end marker follows a start marker. -/
theorem find_end_from_start_none {pre rest : List Byte} (h : Config.endMarker ∉ rest) :
    find (pre ++ Config.startMarker :: rest) Config.endMarker pre.length = none := by
  have h0 : Config.endMarker ∉ Config.startMarker :: rest := List.not_mem_cons_of_ne_of_not_mem (by decide) h
  have := find_append_left (pre := pre) (rest := Config.startMarker :: rest) (b := Config.endMarker) (k := 0)
  rw [find_absent h0] at this
  simpa using this

/-- EXTRACT_FIRST where a frame follows bytes that hold no start marker (R132). -/
theorem extractFirst_frame {pre p post : List Byte} (h1 : Config.startMarker ∉ pre) (h2 : Config.endMarker ∉ p) :
    extractFirst (pre ++ Config.startMarker :: (p ++ Config.endMarker :: post)) = .ok p := by
  have e1 : find (pre ++ Config.startMarker :: (p ++ Config.endMarker :: post)) Config.startMarker 0 = some pre.length :=
    find_first h1
  rw [extractFirst, e1]
  simp only [find_end_from_start h2]
  have := slice_append (pre := pre ++ [Config.startMarker]) (mid := p) (post := Config.endMarker :: post)
    (i := pre.length + 1) (j := pre.length + (p.length + 1)) (by simp) (by simp; omega)
  simpa using this

/-- EXTRACT_FIRST where no start marker stands (R132). -/
theorem extractFirst_no_start {raw : List Byte} (h : Config.startMarker ∉ raw) : extractFirst raw = .absent := by
  simp [extractFirst, find_absent h]

/-- EXTRACT_FIRST where no end marker follows the first start marker (R132). -/
theorem extractFirst_no_end {pre rest : List Byte} (h1 : Config.startMarker ∉ pre) (h2 : Config.endMarker ∉ rest) :
    extractFirst (pre ++ Config.startMarker :: rest) = .absent := by
  have e1 : find (pre ++ Config.startMarker :: rest) Config.startMarker 0 = some pre.length := find_first h1
  rw [extractFirst, e1]
  simp only [find_end_from_start_none h2]

/-- EXTRACT_FIRST of a frame laid out whole (R69, R133). -/
theorem extractFirst_layFrame {p : List Byte} (h : Config.endMarker ∉ p) : extractFirst (layFrame p) = .ok p := by
  simpa [layFrame] using extractFirst_frame (pre := []) (post := []) (by simp) h

end Sys2Proof.Laws
end

