-- ==== Sys2Proof/Laws/Pairs.lean ====
section
/-! SUPPORT. What the regrouping of pairs and one turn of the replay scan compute, said once each. -/

namespace Sys2Proof.Laws

open Machine

/-- One byte per pair of units (R180). -/
theorem joinPairs_length (u : List Byte) : (joinPairs u).length = u.length / 2 := by
  induction u using joinPairs.induct with
  | case1 l h rest ih => simp [joinPairs, ih]; omega
  | case2 u hu =>
    match u, hu with
    | [], _ => rfl
    | [x], _ => simp [joinPairs]
    | a :: b :: c, hu => exact absurd rfl (hu a b c)

/-- The byte of pair `k` (R180, R112). -/
theorem joinPairs_get {u : List Byte} {k : Nat} {l h : Byte} (hl : u[2 * k]? = some l) (hh : u[2 * k + 1]? = some h) :
    (joinPairs u)[k]? = some (joinPair l h) := by
  induction u using joinPairs.induct generalizing k with
  | case1 l' h' rest ih =>
    cases k with
    | zero => simp at hl hh; subst hl hh; simp [joinPairs]
    | succ k =>
      simpa [joinPairs] using ih (k := k) (by simpa [Nat.mul_add] using hl) (by simpa [Nat.mul_add] using hh)
  | case2 u hu =>
    match u, hu with
    | [], _ => simp at hl
    | [x], _ => simp at hh
    | a :: b :: c, hu => exact absurd rfl (hu a b c)

/-- One code per pair of bytes (R200). -/
theorem nameCodes_length (u : List Byte) : (nameCodes u).length = u.length / 2 := by
  induction u using nameCodes.induct with
  | case1 l h rest ih => simp [nameCodes, ih]; omega
  | case2 u hu =>
    match u, hu with
    | [], _ => rfl
    | [x], _ => simp [nameCodes]
    | a :: b :: c, hu => exact absurd rfl (hu a b c)

/-- The code of pair `k` (R200). -/
theorem nameCodes_get {u : List Byte} {k : Nat} {l h : Byte} (hl : u[2 * k]? = some l) (hh : u[2 * k + 1]? = some h) :
    (nameCodes u)[k]? = some (BitVec.ofNat 9 (pairSum l h)) := by
  induction u using nameCodes.induct generalizing k with
  | case1 l' h' rest ih =>
    cases k with
    | zero => simp at hl hh; subst hl hh; simp [nameCodes]
    | succ k =>
      simpa [nameCodes] using ih (k := k) (by simpa [Nat.mul_add] using hl) (by simpa [Nat.mul_add] using hh)
  | case2 u hu =>
    match u, hu with
    | [], _ => simp at hl
    | [x], _ => simp at hh
    | a :: b :: c, hu => exact absurd rfl (hu a b c)

/-- The code keeps the pair's sum exactly (R103, R200). -/
theorem code_toNat (l h : Byte) : (BitVec.ofNat 9 (pairSum l h)).toNat = pairSum l h := by
  have := pairSum_lt l h
  simp; omega

/-- The scan stops where no start marker stands from the cursor on (R180). -/
theorem replayScan_no_start {pre tail : List Byte} (fuel : Nat) (flat : List Byte) (h : Config.startMarker ∉ tail) :
    replayScan (pre ++ tail) fuel pre.length flat = flat := by
  cases fuel with
  | zero => rfl
  | succ fuel =>
    have := find_append_left (pre := pre) (rest := tail) (b := Config.startMarker) (k := 0)
    rw [find_absent h] at this
    simp at this
    simp [replayScan, this]

/-- Where the scan finds its next start marker. -/
theorem find_start_from {pre gap rest : List Byte} (h : Config.startMarker ∉ gap) :
    find (pre ++ (gap ++ Config.startMarker :: rest)) Config.startMarker pre.length = some (pre.length + gap.length) := by
  have := find_append_left (pre := pre) (rest := gap ++ Config.startMarker :: rest) (b := Config.startMarker) (k := 0)
  rw [find_first h] at this
  simpa [Nat.add_comm] using this

/-- The scan stops where no end marker follows the next start marker (R180, R183). -/
theorem replayScan_no_end {pre gap rest : List Byte} (fuel : Nat) (flat : List Byte)
    (h1 : Config.startMarker ∉ gap) (h2 : Config.endMarker ∉ rest) :
    replayScan (pre ++ (gap ++ Config.startMarker :: rest)) fuel pre.length flat = flat := by
  cases fuel with
  | zero => rfl
  | succ fuel =>
    have e := find_end_from_start_none (pre := pre ++ gap) h2
    simp only [List.length_append, List.append_assoc] at e
    simp only [replayScan, find_start_from h1, e]

/-- One turn of the scan over a complete frame: its body without the first two bytes is taken, and the cursor stands after
its end marker (R180, R181). -/
theorem replayScan_frame {pre gap body post : List Byte} (fuel : Nat) (flat : List Byte)
    (h1 : Config.startMarker ∉ gap) (h2 : Config.endMarker ∉ body) :
    replayScan (pre ++ (gap ++ Config.startMarker :: (body ++ Config.endMarker :: post))) (fuel + 1) pre.length flat =
      replayScan (pre ++ (gap ++ Config.startMarker :: (body ++ Config.endMarker :: post))) fuel
        (pre ++ (gap ++ Config.startMarker :: (body ++ [Config.endMarker]))).length (flat ++ body.drop 2) := by
  have e := find_end_from_start (pre := pre ++ gap) (post := post) h2
  simp only [List.length_append, List.append_assoc] at e
  rw [replayScan]
  simp only [find_start_from h1, e]
  have hidx : pre.length + gap.length + (body.length + 1) + 1 =
      (pre ++ (gap ++ Config.startMarker :: (body ++ [Config.endMarker]))).length := by simp; omega
  rw [hidx]
  congr 1
  match body with
  | [] => rw [if_neg (by simp [Config.dataOffset])]; simp
  | [x] => rw [if_neg (by simp [Config.dataOffset])]; simp
  | x :: y :: u =>
    have hsl := slice_append (pre := pre ++ (gap ++ [Config.startMarker, x, y])) (mid := u) (post := Config.endMarker :: post)
      (i := pre.length + gap.length + Config.dataOffset) (j := pre.length + gap.length + ((x :: y :: u).length + 1))
      (by simp [Config.dataOffset]; omega) (by simp; omega)
    simp at hsl
    cases u with
    | nil => rw [if_neg (by simp [Config.dataOffset])]; simp
    | cons z zs => rw [if_pos (by simp [Config.dataOffset])]; simpa using hsl

end Sys2Proof.Laws
end

