-- ==== Sys2Proof/Laws/Wire.lean ====
section
/-! SUPPORT. The byte layouts of the wire space in arithmetic, and what the decoder reads of them. -/

namespace Sys2Proof.Laws

open Machine

/-- A group's byte is below 0x80 (R41). -/
theorem layGroup_lt (g : BitVec 7) : (layGroup g).toNat < 0x80 := by
  have := g.isLt
  simp [layGroup]; omega

/-- A 21-bit rate as three digits to base 128 (R71, R78). -/
theorem layBaud_eq (b : BitVec 21) :
    layBaud b = [BitVec.ofNat 8 (b.toNat % 128), BitVec.ofNat 8 (b.toNat / 2 ^ 7 % 128),
      BitVec.ofNat 8 (b.toNat / 2 ^ 14)] := by
  have := b.isLt
  simp [layBaud, layGroup, ← BitVec.toNat_inj, Nat.shiftRight_eq_div_pow]; omega

/-- A 14-bit length as the literal 0 and two digits (R72). -/
theorem layReadLength_eq (n : BitVec 14) :
    layReadLength n = [0, BitVec.ofNat 8 (n.toNat % 128), BitVec.ofNat 8 (n.toNat / 128)] := by
  have := n.isLt
  simp [layReadLength, layGroup, ← BitVec.toNat_inj, Nat.shiftRight_eq_div_pow]; omega

/-- Each byte as remainder and quotient by 128 (R73, R79). -/
theorem layPairs_eq (data : List Byte) :
    layPairs data = data.flatMap fun b => [BitVec.ofNat 8 (b.toNat % 128), BitVec.ofNat 8 (b.toNat / 128)] := by
  induction data with
  | nil => rfl
  | cons a t ih =>
    have := a.isLt
    simp only [layPairs, ih, List.flatMap_cons, List.cons_append, List.nil_append]
    congr 1
    · apply BitVec.eq_of_toNat_eq; simp [layGroup]
    · congr 1; apply BitVec.eq_of_toNat_eq; simp [Nat.shiftRight_eq_div_pow]; try omega

theorem layBaud_units (b : BitVec 21) : ∀ x ∈ layBaud b, x.toNat < 0x80 := by
  simp only [layBaud, List.mem_cons, List.not_mem_nil, or_false]
  rintro x (rfl | rfl | rfl) <;> exact layGroup_lt _

theorem layReadLength_units (n : BitVec 14) : ∀ x ∈ layReadLength n, x.toNat < 0x80 := by
  simp only [layReadLength, List.mem_cons, List.not_mem_nil, or_false]
  rintro x (rfl | rfl | rfl)
  · decide
  · exact layGroup_lt _
  · exact layGroup_lt _

theorem layPairs_units (data : List Byte) : ∀ x ∈ layPairs data, x.toNat < 0x80 := by
  induction data with
  | nil => simp [layPairs]
  | cons a t ih =>
    have := a.isLt
    simp only [layPairs, List.mem_cons]
    rintro x (rfl | rfl | hx)
    · exact layGroup_lt _
    · simp [Nat.shiftRight_eq_div_pow]; omega
    · exact ih x hx

/-- The pairs of data read back as the data (R73). -/
theorem readPairs_layPairs (data : List Byte) : readPairs (layPairs data) = some data := by
  induction data with
  | nil => rfl
  | cons a t ih =>
    have h : ((a.extractLsb' 7 1).setWidth 8 : Byte).toNat < 2 := by simp [Nat.shiftRight_eq_div_pow]; omega
    simp only [layPairs, readPairs, h, if_true, ih, Option.map_some]
    congr 2
    revert a; decide

/-- The port-fused byte carries its code in the high nibble and its port in the low one (R77, R84). -/
theorem fused_fields (code : SubCode) (port : BitVec 4) :
    subCodeOfNibble ((subCodeByte code ||| port.setWidth 8).extractLsb' 4 4) = some code ∧
      (subCodeByte code ||| port.setWidth 8).extractLsb' 0 4 = port := by
  revert port; cases code <;> decide

/-- The port-fused byte is a unit. -/
theorem fused_lt (code : SubCode) (port : BitVec 4) : (subCodeByte code ||| port.setWidth 8).toNat < 0x80 := by
  revert port; cases code <;> decide

/-- A UART command frame's payload is 7-bit clean where its parameters are (R70). -/
theorem layUart_units {code : SubCode} {port : BitVec 4} {ps : List Byte} (h : ∀ b ∈ ps, b.toNat < 0x80) :
    ∀ b ∈ layUart code port ps, b.toNat < 0x80 := by
  simp only [layUart, List.mem_cons]
  rintro b (rfl | rfl | hb)
  · decide
  · exact fused_lt code port
  · exact h b hb

/-- The markers of a laid frame enclose its payload (R69). -/
theorem betweenMarkers_layFrame (p : List Byte) : betweenMarkers (layFrame p) = .ok p := by
  simp [betweenMarkers, layFrame]

/-- Only a laid frame has markers at both ends (R69). -/
theorem layFrame_of_betweenMarkers {bytes p : List Byte} (h : betweenMarkers bytes = .ok p) : bytes = layFrame p := by
  unfold betweenMarkers at h
  split at h
  · cases h
  · split at h
    · split at h
      · rename_i f r h1 h2
        cases h
        subst h1
        have hne : r ≠ [] := by rintro rfl; simp at h2
        have h3 := List.dropLast_append_getLast hne
        rw [List.getLast?_eq_some_getLast hne] at h2
        simp at h2
        rw [h2] at h3
        simp [layFrame, h3]
      · cases h
    · cases h

/-- The decoder classifies the payload of a 7-bit-clean frame (R69, R84). -/
theorem decodeFrame_layFrame {p : List Byte} (h : ∀ b ∈ p, b.toNat < 0x80) :
    decodeFrame (layFrame p) = .ok (classifyFrame p) := by
  rw [decodeFrame, betweenMarkers_layFrame]
  simp only [unitsOnly_iff.mpr h, if_true]

/-- A UART command frame is classified by its code, its port and its parameters (R84). -/
theorem classifyFrame_layUart (code : SubCode) (port : BitVec 4) (ps : List Byte) :
    classifyFrame (layUart code port ps) = classifyUart code port ps := by
  simp only [classifyFrame, layUart, if_true, (fused_fields code port).1, (fused_fields code port).2]

end Sys2Proof.Laws
end

