-- ==== Sys2Proof/Laws/PerInstr.lean ====
section
/-! SUPPORT. A property of every instruction as syntax, proved for each constructor. -/

namespace Sys2Proof.Laws

open Machine

/-- A laid frame of units is markers around bytes below 0x80. -/
theorem layFrame_shape {p : List Byte} (h : ∀ b ∈ p, b.toNat < 0x80) :
    ∃ p', layFrame p = Config.startMarker :: (p' ++ [Config.endMarker]) ∧ ∀ b ∈ p', b.toNat < 0x80 :=
  ⟨p, rfl, h⟩

/-- A well-formed row of the SysexFramer channel is encoded as markers around a 7-bit-clean payload (R69). -/
def FrameShape.Statement (i : Instr) : Prop :=
  WellFormed i = true → (encode i).1 = .sysexFramer →
    ∃ p, encodeBytes i = Config.startMarker :: (p ++ [Config.endMarker]) ∧ ∀ b ∈ p, b.toNat < 0x80

theorem FrameShape.extractBits (v : Value) (a b : Byte) : FrameShape.Statement (.extractBits v a b) := by
  rintro - h; cases h

theorem FrameShape.splitByte (b : Byte) : FrameShape.Statement (.splitByte b) := by rintro - h; cases h

theorem FrameShape.splitWord (v : Value) (w : Byte) : FrameShape.Statement (.splitWord v w) := by rintro - h; cases h

theorem FrameShape.joinPair (l h : Byte) : FrameShape.Statement (.joinPair l h) := by rintro - h; cases h

theorem FrameShape.joinPairWord (l h : Byte) : FrameShape.Statement (.joinPairWord l h) := by rintro - h; cases h

theorem FrameShape.frame (p : List Byte) : FrameShape.Statement (.frame p) := by rintro - h; cases h

theorem FrameShape.frameWithCode (p : List Byte) (c : Byte) : FrameShape.Statement (.frameWithCode p c) := by
  rintro - h; cases h

theorem FrameShape.extractFirst (raw : List Byte) : FrameShape.Statement (.extractFirst raw) := by rintro - h; cases h

theorem FrameShape.makeCode (c p : Byte) : FrameShape.Statement (.makeCode c p) := by rintro - h; cases h

theorem FrameShape.buildInit (p : Byte) (b : Value) : FrameShape.Statement (.buildInit p b) := by rintro - h; cases h

theorem FrameShape.buildArmRead (p : Byte) (n : BitVec 16) : FrameShape.Statement (.buildArmRead p n) := by
  rintro - h; cases h

theorem FrameShape.buildWrite (p : Byte) (d : List Byte) : FrameShape.Statement (.buildWrite p d) := by
  rintro - h; cases h

theorem FrameShape.buildFlush (p : Byte) : FrameShape.Statement (.buildFlush p) := by rintro - h; cases h

theorem FrameShape.extractReplay (raw : List Byte) : FrameShape.Statement (.extractReplay raw) := by
  rintro - h; cases h

theorem FrameShape.extractName (k : Value) (m : Option (List Byte)) : FrameShape.Statement (.extractName k m) := by
  rintro - h; cases h

theorem FrameShape.extractVersion (m : Option (List Byte)) : FrameShape.Statement (.extractVersion m) := by
  rintro - h; cases h

theorem FrameShape.wireFrame (p : List Byte) : FrameShape.Statement (.wireFrame p) := by
  intro hw _
  simp only [WellFormed, Bool.and_eq_true, unitsOnly_iff] at hw
  exact layFrame_shape hw.1

theorem FrameShape.uartCommand (c : SubCode) (p : BitVec 4) (ps : List Byte) :
    FrameShape.Statement (.uartCommand c p ps) := by
  intro hw _
  simp only [WellFormed, Bool.and_eq_true, unitsOnly_iff] at hw
  exact layFrame_shape (layUart_units hw.1)

theorem FrameShape.uartInit (p : BitVec 4) (b : BitVec 21) : FrameShape.Statement (.uartInit p b) := fun _ _ =>
  layFrame_shape (layUart_units (layBaud_units b))

theorem FrameShape.uartReadArm (p : BitVec 4) (n : BitVec 14) : FrameShape.Statement (.uartReadArm p n) := fun _ _ =>
  layFrame_shape (layUart_units (layReadLength_units n))

theorem FrameShape.uartWrite (p : BitVec 4) (d : List Byte) : FrameShape.Statement (.uartWrite p d) := fun _ _ =>
  layFrame_shape (layUart_units (layPairs_units d))

theorem FrameShape.uartFlush (p : BitVec 4) : FrameShape.Statement (.uartFlush p) := fun _ _ =>
  layFrame_shape (layUart_units (by simp))

theorem FrameShape.replayFrame (a b : Byte) (u : List Byte) : FrameShape.Statement (.replayFrame a b u) := by
  rintro - h; cases h

theorem FrameShape.handshakeMsg (k : HandshakeReading) (a : Byte) (v : Byte × Byte) (r : List Byte) :
    FrameShape.Statement (.handshakeMsg k a v r) := by
  rintro - h; cases h

end Sys2Proof.Laws
end

