-- ==== Sys2Proof/Laws/Readers.lean ====
section
/-! SUPPORT. What the shared readers of the wire rows answer, said once each. -/

namespace Sys2Proof.Laws

open Machine

variable {s : State}

/-- Reading a laid frame without an inner end marker answers its payload (R132, R133). -/
theorem readFrame_layFrame {p : List Byte} (h : Config.endMarker ∉ p) (hf : fits s.params (layFrame p) = true) :
    readFrame (layFrame p) s = .next (s.withResponse (seqResult p)) := by
  rw [readFrame, accept_of_fits hf, extractFirst_layFrame h, respond_ok]

/-- Without the unit every reading of a handshake message is IllegalOp (R80). -/
theorem readHandshake_of_absent (reading : HandshakeReading) (bytes : List Byte) (h : s.params.hasHsp = false) :
    readHandshake reading bytes s = .next (s.withResponse (bareResponse .illegalOp)) := by
  cases reading <;> exact needHsp_of_absent h

/-- With the unit, an accepted message is answered by the operation the reading names: EXTRACT_VERSION. -/
theorem readHandshake_version {bytes : List Byte} (h : s.params.hasHsp = true) (hf : fits s.params bytes = true) :
    readHandshake .version bytes s = respond s (extractVersion (some bytes)) pairResult := by
  rw [readHandshake, needHsp_of_present h, accept_of_fits hf]

/-- With the unit, an accepted message is answered by the operation the reading names: EXTRACT_NAME. -/
theorem readHandshake_name {bytes : List Byte} (startIndex : Value) (h : s.params.hasHsp = true)
    (hf : fits s.params bytes = true) :
    readHandshake (.name startIndex) bytes s = respond s (extractName startIndex.toNat (some bytes)) nameResult := by
  rw [readHandshake, needHsp_of_present h, accept_of_fits hf]

/-- A reading that gives a next state ran on an accepted message, or answered IllegalOp for the absent unit. -/
theorem readHandshake_next {reading : HandshakeReading} {bytes : List Byte} {t : State}
    (h : readHandshake reading bytes s = .next t) :
    (s.params.hasHsp = true ∧ fits s.params bytes = true) ∨
      (s.params.hasHsp = false ∧ t = s.withResponse (bareResponse .illegalOp)) := by
  cases reading <;> rcases needHsp_next h with ⟨hp, hr⟩ | ⟨hp, rfl⟩
  · exact .inl ⟨hp, (accept_next hr).1⟩
  · exact .inr ⟨hp, rfl⟩
  · exact .inl ⟨hp, (accept_next hr).1⟩
  · exact .inr ⟨hp, rfl⟩

end Sys2Proof.Laws
end

