-- ==== Sys2Proof/Tests/Slice0.lean ====
section
/-! SUPPORT. The model's own tests. Expected values are those of spec/95_test_vectors.md (the vector's mark or table is
named) or of the rule named, worked out by hand. Then one witness for every obligation that has hypotheses. -/

open Sys2Proof Sys2Proof.Machine Sys2Proof.Claims

namespace Sys2Proof.Tests

/-- What a transaction answers, if it responds. -/
def answer : Host.Outcome State Fault Refusal → Option Response
  | .next t => t.response
  | .fault _ => none
  | .refused _ => none

/-- What a transaction refuses with, if it refuses. -/
def refusal : Host.Outcome State Fault Refusal → Option Refusal
  | .next _ => none
  | .fault _ => none
  | .refused r => some r

/-- The block after reset. -/
abbrev st : State := State.reset

/-- A block with a finite MAX_LEN. -/
def bounded (n : Nat) : State := { State.reset with params := { hasHsp := true, maxLen := some n } }

/-- A block without the HandshakeParser, with a finite MAX_LEN. -/
def noHsp (n : Nat) : State := { State.reset with params := { hasHsp := false, maxLen := some n } }

/-- A block whose inputs present a request. -/
def onRequest (q : Request) : State := { State.reset with request := q }

/-- A block whose inputs present bytes on a wire channel. -/
def onWire (ch : Channel) (bytes : List Byte) : State :=
  { State.reset with channel := ch, request := { zeroRequest with inp := bytes } }

/-- The answers of R25. -/
def okOut (out : List Byte) : Option Response := some { status := .ok, ports := { out := some out } }
def okR (r : BitVec 16) : Option Response := some { status := .ok, ports := { r := some r } }
def okR2 (r : BitVec 16) (r2 : Byte) : Option Response := some { status := .ok, ports := { r := some r, r2 := some r2 } }
def okName (name : List CharCode) : Option Response := some { status := .ok, ports := { name := some name } }
def bare (status : Status) : Option Response := some { status := status, ports := {} }

/-! ### Well-formedness: an ill-formed term for each check, which the check refuses -/

theorem test_wf_frame_high_byte : WellFormed (.wireFrame [0x01, 0x80]) = false := by decide
theorem test_wf_frame_of_uart_shape : WellFormed (.wireFrame [0x60, 0x21]) = false := by decide
theorem test_wf_frame_of_unknown_code : WellFormed (.wireFrame [0x60, 0x41]) = true := by decide
theorem test_wf_command_high_byte : WellFormed (.uartCommand .init 1 [0x80]) = false := by decide
theorem test_wf_command_of_init_shape : WellFormed (.uartCommand .init 1 [0, 4, 7]) = false := by decide
theorem test_wf_command_of_arm_shape : WellFormed (.uartCommand .readArm 1 [0, 4, 7]) = false := by decide
theorem test_wf_command_arm_literal : WellFormed (.uartCommand .readArm 1 [1, 4, 7]) = true := by decide
theorem test_wf_command_of_write_shape : WellFormed (.uartCommand .write 1 [0x41, 1]) = false := by decide
theorem test_wf_command_write_high_unit : WellFormed (.uartCommand .write 1 [0x41, 2]) = true := by decide
theorem test_wf_command_of_flush_shape : WellFormed (.uartCommand .flush 1 []) = false := by decide
theorem test_wf_replay_end_in_header : WellFormed (.replayFrame 0xF7 0x41 []) = false := by decide
theorem test_wf_replay_end_in_second : WellFormed (.replayFrame 0x60 0xF7 []) = false := by decide
theorem test_wf_replay_end_in_units : WellFormed (.replayFrame 0x60 0x41 [1, 0xF7]) = false := by decide

/-! ### Decoding: every constructor from words written out from R67 and R69 to R76 -/

/-- A request with these ports, `IN` = [0x11, 0x22], `IN_VALID` as given. -/
def rq (op : BitVec 4) (a : Value) (b c : Byte) (valid : Bool) : Request :=
  { op := op, a := a, b := b, c := c, inp := [0x11, 0x22], inValid := valid }

theorem test_decode_extractBits :
    decode .request (rq 0b0000 0xDEADBEEF 4 11 false) = .ok (.extractBits 0xDEADBEEF 4 11) := by decide
/-- Table 2.7: bits of `A` above the operand's 8 bits are ignored. -/
theorem test_decode_splitByte : decode .request (rq 0b0001 0xFFFFFFA5 9 9 false) = .ok (.splitByte 0xA5) := by decide
theorem test_decode_splitWord : decode .request (rq 0b0010 0xDEADBEEF 14 9 true) = .ok (.splitWord 0xDEADBEEF 14) := by
  decide
theorem test_decode_joinPair : decode .request (rq 0b0011 0x125 3 9 true) = .ok (.joinPair 0x25 3) := by decide
theorem test_decode_joinPairWord : decode .request (rq 0b0100 0x134 0x24 9 true) = .ok (.joinPairWord 0x34 0x24) := by
  decide
/-- `IN_VALID` is read only by the operations on `msg` (R21). -/
theorem test_decode_frame : decode .request (rq 0b0101 7 7 7 false) = .ok (.frame [0x11, 0x22]) := by decide
theorem test_decode_frameWithCode :
    decode .request (rq 0b0110 0x160 7 7 false) = .ok (.frameWithCode [0x11, 0x22] 0x60) := by decide
theorem test_decode_extractFirst : decode .request (rq 0b0111 7 7 7 false) = .ok (.extractFirst [0x11, 0x22]) := by decide
theorem test_decode_makeCode : decode .request (rq 0b1000 0x130 1 7 true) = .ok (.makeCode 0x30 1) := by decide
theorem test_decode_buildInit : decode .request (rq 0b1001 115200 2 7 true) = .ok (.buildInit 2 115200) := by decide
/-- Table 2.7: `maxBytes` is `A[15:0]`. -/
theorem test_decode_buildArmRead : decode .request (rq 0b1010 0x00010040 1 7 true) = .ok (.buildArmRead 1 0x40) := by decide
theorem test_decode_buildWrite : decode .request (rq 0b1011 7 1 7 false) = .ok (.buildWrite 1 [0x11, 0x22]) := by decide
theorem test_decode_buildFlush : decode .request (rq 0b1100 7 15 7 true) = .ok (.buildFlush 15) := by decide
theorem test_decode_extractReplay : decode .request (rq 0b1101 7 7 7 false) = .ok (.extractReplay [0x11, 0x22]) := by decide
theorem test_decode_extractName : decode .request (rq 0b1110 3 7 7 true) = .ok (.extractName 3 (some [0x11, 0x22])) := by
  decide
theorem test_decode_extractName_absent : decode .request (rq 0b1110 3 7 7 false) = .ok (.extractName 3 none) := by decide
theorem test_decode_extractVersion : decode .request (rq 0b1111 7 7 7 true) = .ok (.extractVersion (some [0x11, 0x22])) := by
  decide

/-- R69: `11110000`, `0ddddddd` any number of times, `11110111`. -/
theorem test_decode_wireFrame :
    decodeFrame [0b11110000, 0b00000001, 0b01111111, 0b11110111] = .ok (.wireFrame [0x01, 0x7F]) := by decide
/-- R70, R84: READ_ARM with a first parameter that is not 0 has the general form only. -/
theorem test_decode_uartCommand :
    decodeFrame [0b11110000, 0b01100000, 0b00110101, 0b00000001, 0b11110111] = .ok (.uartCommand .readArm 5 [0x01]) := by
  decide
/-- R71: 115200 = 7 * 2^14 + 4 * 2^7. -/
theorem test_decode_uartInit :
    decodeFrame [0b11110000, 0b01100000, 0b00010010, 0b00000000, 0b00000100, 0b00000111, 0b11110111] =
      .ok (.uartInit 2 115200) := by decide
/-- R72: 200 = 1 * 2^7 + 0x48. -/
theorem test_decode_uartReadArm :
    decodeFrame [0b11110000, 0b01100000, 0b00110001, 0b00000000, 0b01001000, 0b00000001, 0b11110111] =
      .ok (.uartReadArm 1 200) := by decide
/-- R73: 0xFF is the pair 7F 01, 0x41 the pair 41 00. -/
theorem test_decode_uartWrite :
    decodeFrame [0b11110000, 0b01100000, 0b00101111, 0b01111111, 0b00000001, 0b01000001, 0b00000000, 0b11110111] =
      .ok (.uartWrite 15 [0xFF, 0x41]) := by decide
/-- R74: for port 0 the selector and the port-fused byte are equal. -/
theorem test_decode_uartFlush :
    decodeFrame [0b11110000, 0b01100000, 0b01100000, 0b11110111] = .ok (.uartFlush 0) := by decide
/-- R75: a second 0xF0 and bytes of 0x80 and above are read like any other. -/
theorem test_decode_replayFrame :
    decodeReplay [0b11110000, 0x60, 0x41, 0xF0, 0x41, 0b11110111] = .ok (.replayFrame 0x60 0x41 [0xF0, 0x41]) := by decide
/-- R76: `msg[1]` major, `msg[2]` raw minor. -/
theorem test_decode_handshakeMsg :
    decodeHandshake .version [0x79, 0x02, 0x05, 0x53, 0x00] = .ok (.handshakeMsg .version 0x79 (0x02, 0x05) [0x53, 0x00]) := by
  decide

/-- Each way of rejecting bytes by name. -/
theorem test_decode_rejections :
    decodeFrame [0x01, 0x02, 0x03] = .error .noStartMarker ∧ decodeFrame [0xF0, 0x01, 0x02] = .error .noEndMarker ∧
    decodeFrame [0xF0, 0x81, 0xF7] = .error .payloadByteHigh ∧
    decodeReplay [0xF0, 0x60, 0x41, 0xF7, 0xF7] = .error .endMarkerInside ∧ decodeReplay [0xF0, 0x60, 0xF7] = .error .tooShort ∧
    decodeHandshake (.name 3) [0x79, 0x02] = .error .tooShort := by decide

/-- The byte F0 alone holds a start marker and no end marker. -/
theorem test_decode_lone_marker : decodeFrame [0xF0] = .error .noEndMarker ∧ decodeFrame [] = .error .noStartMarker := by
  decide

/-! ### Words of the opcode table, and fetching them -/

theorem test_table_words :
    decodeTableWord 8 0xE = some (.extractName 0 none) ∧ decodeTableWord 16 0xF0F7 = some (.wireFrame []) ∧
    decodeTableWord 32 0xF06021F7 = some (.uartWrite 1 []) ∧
    decodeTableWord 16 0x7902 = none ∧ decodeTableWord 32 0xF0FF80F7 = some (.replayFrame 0xFF 0x80 []) ∧
    decodeTableWord 24 0x790205 = some (.handshakeMsg .version 0x79 (0x02, 0x05) []) := by decide

theorem test_fetch_request : answer (step (st.withFetchWord 8 0x4)) = okR 0 := by decide
theorem test_fetch_wire : answer (step (st.withFetchWord 32 0xF06021F7)) = okOut [0x60, 0x21] := by decide

/-! ### The operations, on the vectors of the spec -/

theorem test_extractBits_group : answer (exec (.extractBits 0x0001C200 14 20) st) = okR 0x07 := by decide
/-- D6: bits above the top of `value` read as 0. -/
theorem test_extractBits_past_top : answer (exec (.extractBits 0xFFFFFFFF 28 35) st) = okR 0x0F := by decide

theorem test_splitByte : answer (exec (.splitByte 0xA5) st) = okR2 0x25 1 := by decide

theorem test_splitWord_21 : answer (exec (.splitWord 115200 21) st) = okOut [0x00, 0x04, 0x07] := by decide
theorem test_splitWord_14 : answer (exec (.splitWord 0xDEADBEEF 14) st) = okOut [0x6F, 0x7D] := by decide

/-- D9: the sum 0x170 keeps its low 8 bits. -/
theorem test_joinPair_wraps : answer (exec (.joinPair 0xF0 0x41) st) = okR 0x70 := by decide
theorem test_joinPair_one_bit : answer (exec (.joinPair 0x25 0xFE) st) = okR 0x25 := by decide

theorem test_joinPairWord_carries : answer (exec (.joinPairWord 0xFF 0x01) st) = okR 0x017F := by decide
theorem test_joinPairWord_seven_bits : answer (exec (.joinPairWord 0x7F 0xFF) st) = okR 0x3FFF := by decide

theorem test_frame_marker_refused : answer (exec (.frame [0xF0, 0x60, 0x21, 0xF7]) st) = bare .formatError := by decide
theorem test_frame_empty : answer (exec (.frame []) st) = okOut [0xF0, 0xF7] := by decide

theorem test_frameWithCode : answer (exec (.frameWithCode [0x21, 0x41] 0x60) st) = okOut [0xF0, 0x60, 0x21, 0x41, 0xF7] := by
  decide
theorem test_frameWithCode_high : answer (exec (.frameWithCode [0x01] 0x80) st) = bare .formatError := by decide

theorem test_extractFirst_between :
    answer (exec (.extractFirst [0xF7, 0xF0, 0x01, 0xF0, 0x81, 0xF7, 0xF0, 0x02, 0xF7]) st) = okOut [0x01, 0xF0, 0x81] := by
  decide
theorem test_extractFirst_incomplete : answer (exec (.extractFirst [0xF7, 0xF7, 0xF0]) st) = bare .none := by decide

theorem test_makeCode : answer (exec (.makeCode 0xF0 15) st) = okR 0xFF := by decide
theorem test_makeCode_low_nibble : answer (exec (.makeCode 0x31 1) st) = bare .formatError := by decide

theorem test_buildInit : answer (exec (.buildInit 1 31250) st) = okOut [0xF0, 0x60, 0x11, 0x12, 0x74, 0x01, 0xF7] := by decide
/-- D7: bit 31 set is negative. -/
theorem test_buildInit_negative : answer (exec (.buildInit 0 0x80000000) st) = bare .formatError := by decide

theorem test_buildArmRead : answer (exec (.buildArmRead 15 128) st) = okOut [0xF0, 0x60, 0x3F, 0x00, 0x00, 0x01, 0xF7] := by
  decide
theorem test_buildArmRead_limit : answer (exec (.buildArmRead 2 0x4000) st) = bare .formatError := by decide

theorem test_buildWrite :
    answer (exec (.buildWrite 1 [0xFF, 0x80]) st) = okOut [0xF0, 0x60, 0x21, 0x7F, 0x01, 0x00, 0x01, 0xF7] := by decide
theorem test_buildWrite_port : answer (exec (.buildWrite 16 []) st) = bare .formatError := by decide

theorem test_buildFlush : answer (exec (.buildFlush 15) st) = okOut [0xF0, 0x60, 0x6F, 0xF7] := by decide

/-- Table 2.5: garbage and stray 0xF7 between frames. -/
theorem test_extractReplay_stream :
    answer (exec (.extractReplay [0x11, 0xF7, 0xF0, 0x60, 0x40, 0x48, 0x00, 0xF7, 0x99, 0xF7, 0xF0, 0x60, 0x40, 0x69, 0x00,
      0xF7, 0x55]) st) = okOut [0x48, 0x69] := by decide
/-- Table 2.5: D10 and D12, then D11, then D13. -/
theorem test_extractReplay_readings :
    answer (exec (.extractReplay [0xF0, 0xF7, 0xF0, 0x60, 0x41, 0x7F, 0x01, 0xF7]) st) = okOut [0xFF] ∧
    answer (exec (.extractReplay [0xF0, 0x60, 0x41, 0x41, 0xF7, 0xF0, 0x60, 0x41, 0x00, 0x42, 0x00, 0xF7]) st) =
      okOut [0x41, 0x42] ∧
    answer (exec (.extractReplay [0xF0, 0x60, 0x41, 0x41, 0x00, 0xF7, 0xF0, 0x60, 0x41, 0x42, 0x00]) st) = okOut [0x41] := by
  decide

/-- D17: codes above 255 are exact. -/
theorem test_extractName_exact :
    answer (exec (.extractName 1 (some [0x79, 0xFF, 0x01, 0x80, 0x03])) st) = okName [0x17F, 0x100] := by decide
theorem test_extractName_odd : answer (exec (.extractName 4 (some [0, 0, 0, 0x41, 0, 0x42, 0])) st) = bare .none := by decide

theorem test_extractVersion : answer (exec (.extractVersion (some [0x00, 0xFF, 0x80, 0x01])) st) = okR2 255 128 := by decide
theorem test_extractVersion_short : answer (exec (.extractVersion (some [0x79, 0x02])) st) = bare .none := by decide

/-! ### The wire rows: read by EXTRACT_FIRST, EXTRACT_REPLAY, and the operations of R76 (logs 7 and 8) -/

theorem test_wireFrame : answer (exec (.wireFrame [0x01, 0x02]) st) = okOut [0x01, 0x02] := by decide
theorem test_uartCommand : answer (exec (.uartCommand .write 1 [0x41]) st) = okOut [0x60, 0x21, 0x41] := by decide
/-- Program P2, step 2. -/
theorem test_uartInit : answer (exec (.uartInit 0 115200) st) = okOut [0x60, 0x10, 0x00, 0x04, 0x07] := by decide
theorem test_uartReadArm : answer (exec (.uartReadArm 1 200) st) = okOut [0x60, 0x31, 0x00, 0x48, 0x01] := by decide
theorem test_uartWrite : answer (exec (.uartWrite 1 [0xFF]) st) = okOut [0x60, 0x21, 0x7F, 0x01] := by decide
theorem test_uartFlush : answer (exec (.uartFlush 1) st) = okOut [0x60, 0x61] := by decide
/-- Table 2.5: inner 0xF0 is data. -/
theorem test_replayFrame : answer (exec (.replayFrame 0x60 0x41 [0xF0, 0x41, 0x42, 0x00]) st) = okOut [0x70, 0x42] := by decide
/-- Program P4, step 2. -/
theorem test_handshakeMsg_version :
    answer (exec (.handshakeMsg .version 0x79 (0x02, 0x05) [0x53, 0x00, 0x74, 0x00, 0x64, 0x00]) st) = okR2 2 5 := by decide
/-- Program P4, step 3. -/
theorem test_handshakeMsg_name :
    answer (exec (.handshakeMsg (.name 3) 0x79 (0x02, 0x05) [0x53, 0x00, 0x74, 0x00, 0x64, 0x00]) st) =
      okName [0x053, 0x074, 0x064] := by decide

/-- Log 20: `IN_VALID` 0 is an absent message on the request channel, and is not read on the parser's. -/
theorem test_handshake_inValid :
    answer (step (onRequest { zeroRequest with op := 0xF, inp := [0x79, 0x02, 0x05] })) = bare .none ∧
    answer (step (onWire (.handshakeParser .version) [0x79, 0x02, 0x05])) = okR2 2 5 ∧
    answer (step { onWire (.handshakeParser .version) [0x79, 0x02, 0x05] with
      request := { zeroRequest with inp := [0x79, 0x02, 0x05], inValid := true } }) = okR2 2 5 := by decide

/-! ### Limits: MAX_LEN (R9) and the absent unit (R80) -/

theorem test_maxLen_at_limit : answer (exec (.frame [0x01, 0x02]) (bounded 2)) = okOut [0xF0, 0x01, 0x02, 0xF7] := by decide
theorem test_maxLen_beyond : refusal (exec (.frame [0x01, 0x02, 0x03]) (bounded 2)) = some .inputTooLong := by decide
/-- Table 2.7: IllegalOp comes before any operand is examined (R228), so also before the length. -/
theorem test_noHsp : answer (exec (.extractVersion (some [1, 2, 3])) (noHsp 0)) = bare .illegalOp := by decide

/-! ### Witnesses: for each obligation with hypotheses, states and operands that meet them, each clause at a boundary -/

theorem witness_DecodeOfEncodedInstruction :
    WellFormed (.wireFrame [0x00, 0x7F]) = true ∧ WellFormed (.uartCommand .write 15 [0x7F]) = true ∧
    WellFormed (.replayFrame 0xF0 0xFF [0xF6, 0x80]) = true ∧ WellFormed (.uartInit 15 0x1FFFFF) = true ∧
    WellFormed (.handshakeMsg (.name 0xFFFFFFFF) 0xF0 (0xF7, 0xFF) [0x80]) = true := by decide

theorem witness_EncodeOfDecodedWireMessage :
    Channel.sysexFramer ≠ .request ∧
    decode .sysexFramer { zeroRequest with inp := [0xF0, 0x60, 0x6F, 0xF7] } = .ok (.uartFlush 15) := by decide

/-- One pair of unequal requests for each operation that agree on what it reads. -/
theorem witness_RequestReadsNamedOperandsOnly :
    sameOperands (rq 0x0 1 2 3 true) { rq 0x0 1 2 3 false with inp := [] } ∧
    sameOperands (rq 0x1 0xFFFFFFA5 2 3 true) (rq 0x1 0xA5 4 5 false) ∧
    sameOperands (rq 0x2 1 2 3 true) (rq 0x2 1 2 4 true) ∧
    sameOperands (rq 0x3 0x1FF 2 3 true) (rq 0x3 0xFF 2 4 true) ∧
    sameOperands (rq 0x4 0x1FF 2 3 true) (rq 0x4 0xFF 2 4 true) ∧
    sameOperands (rq 0x5 1 2 3 true) (rq 0x5 4 5 6 false) ∧
    sameOperands (rq 0x6 0x1FF 2 3 true) (rq 0x6 0xFF 5 6 false) ∧
    sameOperands (rq 0x7 1 2 3 true) (rq 0x7 4 5 6 false) ∧
    sameOperands (rq 0x8 0x1FF 2 3 true) (rq 0x8 0xFF 2 4 true) ∧
    sameOperands (rq 0x9 1 2 3 true) (rq 0x9 1 2 4 false) ∧
    sameOperands (rq 0xA 0x1FFFF 2 3 true) (rq 0xA 0xFFFF 2 4 true) ∧
    sameOperands (rq 0xB 1 2 3 true) (rq 0xB 4 2 6 false) ∧
    sameOperands (rq 0xC 1 2 3 true) (rq 0xC 4 2 6 false) ∧
    sameOperands (rq 0xD 1 2 3 true) (rq 0xD 4 5 6 false) ∧
    sameOperands (rq 0xE 1 2 3 false) { rq 0xE 1 5 6 false with inp := [] } ∧
    sameOperands (rq 0xF 1 2 3 true) (rq 0xF 4 5 6 true) :=
  ⟨⟨rfl, rfl, rfl⟩, rfl, ⟨rfl, rfl⟩, ⟨rfl, rfl⟩, ⟨rfl, rfl⟩, rfl, ⟨rfl, rfl⟩, rfl, ⟨rfl, rfl⟩, ⟨rfl, rfl⟩, ⟨rfl, rfl⟩,
    ⟨rfl, rfl⟩, rfl, rfl, ⟨rfl, rfl, fun h => absurd h (by decide)⟩, ⟨rfl, fun _ => rfl⟩⟩

theorem witness_StepRunsPresentedInstruction :
    decode (onWire .replayExtractor [0xF0, 1, 2, 0xF7]).channel (onWire .replayExtractor [0xF0, 1, 2, 0xF7]).request =
      .ok (.replayFrame 1 2 []) := by decide

theorem witness_StepRunsEncodedInstruction : WellFormed (.uartReadArm 15 0x3FFF) = true := by decide

/-- Bytes of no wire row on each wire channel; the vectors S8 and F0 81 FF F7 of table 2.3 are read all the same. -/
theorem witness_StepReadsBytesOfNoWireRow :
    decode .sysexFramer (onWire .sysexFramer [0xF0, 0x81, 0xFF, 0xF7]).request = .error .payloadByteHigh ∧
    answer (step (onWire .sysexFramer [0xF0, 0x81, 0xFF, 0xF7])) = okOut [0x81, 0xFF] ∧
    answer (step (onWire .sysexFramer [0xF0, 0x01, 0x02])) = bare .none ∧
    decode .replayExtractor (onWire .replayExtractor [0x11]).request = .error .noStartMarker ∧
    answer (step (onWire .replayExtractor [0x11])) = okOut [] ∧
    decode (.handshakeParser .version) (onWire (.handshakeParser .version) [0x79, 0x02]).request = .error .tooShort ∧
    answer (step (onWire (.handshakeParser .version) [0x79, 0x02])) = bare .none ∧
    decode (.handshakeParser (.name 0)) (onWire (.handshakeParser (.name 0)) [0x41, 0x01]).request = .error .tooShort ∧
    answer (step (onWire (.handshakeParser (.name 0)) [0x41, 0x01])) = okName [0x0C1] := by decide

theorem witness_EveryTransactionIsAnswered : State.reset.params.maxLen = none := by decide

/-- Each clause at the length of the limit: accepted, refused, and accepted by the absent unit. -/
theorem witness_RespondsExactlyWhenAccepted :
    accepted (bounded 3).params (.extractReplay [1, 2, 3]) = true ∧
    accepted (bounded 2).params (.extractReplay [1, 2, 3]) = false ∧
    accepted (noHsp 2).params (.extractName 0 (some [1, 2, 3])) = true := by decide

theorem witness_ExtractBitsLaw :
    answer (exec (.extractBits 5 255 255) st) = okR 0 ∧ answer (exec (.extractBits 0xA5 0 7) st) = okR 0xA5 ∧
    answer (exec (.extractBits 5 0 8) st) = bare .rangeError ∧ answer (exec (.extractBits 5 3 2) st) = bare .rangeError := by
  decide

theorem witness_SplitWordGivesGroups :
    answer (exec (.splitWord 0xFF 7) st) = okOut [0x7F] ∧ answer (exec (.splitWord 0x3FFF 14) st) = okOut [0x7F, 0x7F] ∧
    answer (exec (.splitWord 0xFFFFFFFF 21) st) = okOut [0x7F, 0x7F, 0x7F] ∧
    answer (exec (.splitWord 5 8) st) = bare .illegalOp ∧ answer (exec (.splitWord 5 0) st) = bare .illegalOp := by decide

theorem witness_SplitThenJoinReturnsValue :
    (0x1FFFFF : Value).toNat < 2 ^ 21 ∧ (0x3FFF : Value).toNat < 0x4000 ∧
    splitByte (joinPair 0x7F 1) = .ok (0x7F, 1) ∧ splitByte (joinPair 0x80 1) ≠ .ok (0x80, 1) := by decide

theorem witness_UnitsAgreeAcrossWidths :
    (0x3FFF : Value).toNat < 0x4000 ∧ splitWord 0x3FFF 14 = .ok [0x7F, 0x7F] ∧ joinPairWord 0x7F 0x7F = .ok 0x3FFF := by decide

theorem witness_FrameWrapsUnitsOnly :
    fits (bounded 1).params [0x7F] = true ∧ answer (exec (.frame [0x7F]) (bounded 1)) = okOut [0xF0, 0x7F, 0xF7] ∧
    answer (exec (.frame [0x80]) (bounded 1)) = bare .formatError := by decide

theorem witness_FrameWithCodeWrapsCodeFirst :
    fits (bounded 1).params [0x7F] = true ∧
    answer (exec (.frameWithCode [0x7F] 0x7F) (bounded 1)) = okOut [0xF0, 0x7F, 0x7F, 0xF7] ∧
    answer (exec (.frameWithCode [0x7F] 0x80) (bounded 1)) = bare .formatError ∧
    answer (exec (.frameWithCode [0x80] 0x7F) (bounded 1)) = bare .formatError := by decide

/-- Both outcomes, at buffers of exactly the limit's length. -/
theorem witness_ExtractFirstGivesFirstPayload :
    fits (bounded 2).params [0xF0, 0xF7] = true ∧ answer (exec (.extractFirst [0xF0, 0xF7]) (bounded 2)) = okOut [] ∧
    answer (exec (.extractFirst [0xF7, 0xF0]) (bounded 2)) = bare .none := by decide

theorem witness_ExtractFirstOfFrameReturnsPayload :
    (∀ b ∈ ([0x00, 0x7F] : List Byte), b.toNat < 0x80) ∧ 0xF0#8 ∉ ([0xF7, 0xFF] : List Byte) ∧ (0x7F : Byte).toNat < 0x80 ∧
    extractFirst ([0xF7, 0xFF] ++ [0xF0, 0x00, 0x7F, 0xF7] ++ [0xF0]) = .ok [0x00, 0x7F] := by decide

theorem witness_ExtractFirstStableAsBufferGrows :
    extractFirst [0xF0, 0x01, 0xF7] = .ok [0x01] ∧ extractFirst ([0xF0, 0x01, 0xF7] ++ [0xF7]) = .ok [0x01] := by decide

theorem witness_MakeCodeFusesCodeAndPort :
    (0xF0 : Byte).toNat % 16 = 0 ∧ (15 : Byte).toNat < 16 ∧ ¬((0x30 : Byte).toNat % 16 = 0 ∧ (16 : Byte).toNat < 16) ∧
    answer (exec (.makeCode 0x30 16) st) = bare .formatError ∧ answer (exec (.makeCode 0x0F 0) st) = bare .formatError := by
  decide

theorem witness_BuildInitGivesInitFrame :
    (0x7FFFFFFF : Value).toNat < 2 ^ 31 ∧ (15 : Byte).toNat < 16 ∧
    answer (exec (.buildInit 15 0x7FFFFFFF) st) = okOut [0xF0, 0x60, 0x1F, 0x7F, 0x7F, 0x7F, 0xF7] ∧
    answer (exec (.buildInit 16 0x7FFFFFFF) st) = bare .formatError := by decide

theorem witness_BuildArmReadGivesReadArmFrame :
    (0x3FFF : BitVec 16).toNat < 0x4000 ∧ (15 : Byte).toNat < 16 ∧
    answer (exec (.buildArmRead 15 0x3FFF) st) = okOut [0xF0, 0x60, 0x3F, 0x00, 0x7F, 0x7F, 0xF7] ∧
    answer (exec (.buildArmRead 16 0x3FFF) st) = bare .formatError := by decide

theorem witness_BuildWriteGivesWriteFrame :
    fits (bounded 1).params [0x00] = true ∧
    answer (exec (.buildWrite 15 [0x00]) (bounded 1)) = okOut [0xF0, 0x60, 0x2F, 0x00, 0x00, 0xF7] ∧
    answer (exec (.buildWrite 16 [0x00]) (bounded 1)) = bare .formatError := by decide

theorem witness_BuildFlushGivesFlushFrame :
    (15 : Byte).toNat < 16 ∧ answer (exec (.buildFlush 16) st) = bare .formatError := by decide

theorem witness_BuiltFramesReadBackAsTheirRows :
    (15 : Byte).toNat < 16 ∧ (0x7FFFFFFF : Value).toNat < 2 ^ 31 ∧ (0x3FFF : BitVec 16).toNat < 0x4000 := by decide

theorem witness_BuiltFrameHoldsOneMarkerPair :
    buildInit 15 0 = .ok [0xF0, 0x60, 0x1F, 0, 0, 0, 0xF7] ∧ buildArmRead 15 0 = .ok [0xF0, 0x60, 0x3F, 0, 0, 0, 0xF7] ∧
    buildWrite 15 [] = .ok [0xF0, 0x60, 0x2F, 0xF7] ∧ buildFlush 15 = .ok [0xF0, 0x60, 0x6F, 0xF7] := by decide

/-- A stream of a short frame and a whole one, with each of the two tails. -/
theorem witness_ReplayJoinsUnitsOfAllFrames :
    streamParts [([0xF7], []), ([], [0x60, 0x41, 0xF0, 0x41])] [0xF7] ∧
    streamParts [([], [0x60, 0x41, 0x41])] [0x11, 0xF0, 0x60] ∧
    fits (bounded 10).params (stream [([0xF7], []), ([], [0x60, 0x41, 0xF0, 0x41])] [0xF7]) = true := by
  refine ⟨⟨by decide, .inl (by decide)⟩, ⟨by decide, .inr ⟨[0x11], [0x60], rfl, by decide, by decide⟩⟩, by decide⟩

theorem witness_ReplayOfBuiltWriteReturnsData :
    (15 : Byte).toNat < 16 ∧ fits (bounded 6).params [0xFF] = true ∧
    fits (bounded 6).params [0xF0, 0x60, 0x2F, 0x7F, 0x01, 0xF7] = true ∧
    answer (exec (.buildWrite 15 [0xFF]) (bounded 6)) = okOut [0xF0, 0x60, 0x2F, 0x7F, 0x01, 0xF7] := by decide

theorem witness_ReplayOutputIsBounded :
    extractReplay [0xF0, 1, 2, 0xF7] = [] ∧ extractReplay [0xF0, 1, 2, 3, 4, 0xF7] = [3] ∧ extractReplay [0xF0, 1, 0xF7] = [] := by
  decide

/-- The clauses meet at a message as long as the start index. -/
theorem witness_ExtractNameGivesCodesOfPairs :
    (bounded 3).params.hasHsp = true ∧ fits (bounded 3).params [0, 0, 0] = true ∧
    answer (exec (.extractName 3 (some [0, 0, 0])) (bounded 3)) = okName [] ∧
    answer (exec (.extractName 3 (some [0, 0])) (bounded 3)) = bare .none ∧
    answer (exec (.extractName 2 (some [0, 0, 0])) (bounded 3)) = bare .none ∧
    answer (exec (.extractName 3 none) (bounded 3)) = bare .none := by decide

theorem witness_ExtractVersionGivesTwoBytes :
    (bounded 3).params.hasHsp = true ∧ fits (bounded 3).params [0x79, 0x02, 0x05] = true ∧
    ([0x79, 0x02, 0x05] : List Byte)[1]? = some 0x02 ∧ ([0x79, 0x02, 0x05] : List Byte)[2]? = some 0x05 ∧
    answer (exec (.extractVersion (some [0x79, 0x02])) (bounded 3)) = bare .none ∧
    answer (exec (.extractVersion none) (bounded 3)) = bare .none := by decide

theorem witness_HandshakeOpsIllegalWithoutUnit :
    (noHsp 0).params.hasHsp = false ∧ ofHandshakeParser (.extractName 3 none) = true ∧
    ofHandshakeParser (.extractVersion none) = true ∧ ofHandshakeParser (.handshakeMsg .version 0 (0, 0) []) = true ∧
    fits (noHsp 0).params (encodeBytes (.handshakeMsg .version 0 (0, 0) [])) = false := by decide

theorem witness_PlainFrameIsReadAsItsPayload :
    (∀ b ∈ ([0x60, 0x7F] : List Byte), b.toNat < 0x80) ∧ fits (bounded 4).params ([0xF0#8] ++ [0x60, 0x7F] ++ [0xF7#8]) = true := by
  decide

theorem witness_UartFramesAreReadAsTheirPayloads :
    (∀ b ∈ ([0x7F] : List Byte), b.toNat < 0x80) ∧ accepted (bounded 5).params (.uartCommand .flush 15 [0x7F]) = true ∧
    accepted (bounded 7).params (.uartInit 15 0x1FFFFF) = true ∧ accepted (bounded 7).params (.uartReadArm 15 0x3FFF) = true ∧
    accepted (bounded 6).params (.uartWrite 15 [0xFF]) = true ∧ accepted (bounded 4).params (.uartFlush 15) = true := by decide

theorem witness_ReplayFrameIsReadAsJoinedUnits :
    (0xF6 : Byte) ≠ 0xF7#8 ∧ (0xF0 : Byte) ≠ 0xF7#8 ∧ 0xF7#8 ∉ ([0xFF, 0xF0, 0x01] : List Byte) ∧
    fits (bounded 7).params ([0xF0#8, 0xF6, 0xF0] ++ [0xFF, 0xF0, 0x01] ++ [0xF7#8]) = true := by decide

/-- The clauses on the start index at the message's length, one above it and one below it. -/
theorem witness_HandshakeMessageIsReadAsVersionOrName :
    (bounded 4).params.hasHsp = true ∧ fits (bounded 4).params [0x79, 0x02, 0x05, 0x53] = true ∧
    answer (exec (.handshakeMsg .version 0x79 (0x02, 0x05) [0x53]) (bounded 4)) = okR2 2 5 ∧
    answer (exec (.handshakeMsg (.name 4) 0x79 (0x02, 0x05) [0x53]) (bounded 4)) = okName [] ∧
    answer (exec (.handshakeMsg (.name 5) 0x79 (0x02, 0x05) [0x53]) (bounded 4)) = bare .none ∧
    answer (exec (.handshakeMsg (.name 3) 0x79 (0x02, 0x05) [0x53]) (bounded 4)) = bare .none := by decide

/-- For the statements about a next state: an error, taken, is one. -/
theorem witness_next_state :
    exec (.splitWord 5 8) st = .next (st.withResponse { status := .illegalOp, ports := {} }) ∧
    step (onRequest (rq 0x1 0xA5 0 0 false)) =
      .next ((onRequest (rq 0x1 0xA5 0 0 false)).withResponse { status := .ok, ports := { r := some 0x25, r2 := some 1 } }) :=
  ⟨rfl, rfl⟩

theorem witness_TransactionWritesResponseOnly : ∃ t, exec (.buildFlush 16) st = .next t := ⟨_, rfl⟩

/-- Two states that differ in their response and agree in the rest. -/
theorem witness_OutcomeIsFunctionOfOperands :
    st ≠ st.withResponse { status := .none, ports := {} } ∧
    st.params = (st.withResponse { status := .none, ports := {} }).params ∧
    st.channel = (st.withResponse { status := .none, ports := {} }).channel ∧
    st.request = (st.withResponse { status := .none, ports := {} }).request ∧ answer (step st) = okR 0 := by decide

theorem witness_RepeatedTransactionChangesNothing : ∃ t, step (onRequest (rq 0x2 5 8 0 false)) = .next t := ⟨_, rfl⟩

theorem witness_NextRequestServedLikeAnyOther : ∃ t, step (onWire .sysexFramer [0xF0]) = .next t := ⟨_, rfl⟩

theorem witness_ResponseShapeKeptByEveryStep :
    Inv State.reset ∧ ∃ t, step (onRequest (rq 0x4 0xFF 0xFF 0 false)) = .next t ∧ answer (.next t) = okR 0x407F :=
  ⟨fun _ h => (by cases h), _, rfl, by decide⟩

theorem witness_StatusFollowsOutcomeTable :
    ∃ t, exec (.extractBits 5 0 8) st = .next t ∧ t.response = some { status := .rangeError, ports := {} } := ⟨_, rfl, rfl⟩

end Sys2Proof.Tests
end

/-! ## When a transaction is answered (R7, R9, R80; logs 5 and 16)

Every arm of `exec` is one response behind at most two checks: the optional unit's, then the length's. `gated` names these
checks, `exec_eq_gated` says once that every instruction is of that form, and the statements follow from what `gated` does. -/

namespace Sys2Proof.Proofs

open Machine Laws

section Gate

variable {i : Instr} {s : State}

/-- The two checks an instruction passes before it responds: the presence of its unit (R80), then the length of what it
takes from `IN` (R9). -/
def gated (i : Instr) (s : State) (run : Host.Outcome State Fault Refusal) : Host.Outcome State Fault Refusal :=
  if ofHandshakeParser i then needHsp s (acceptMsg s (inputOf i) run) else acceptMsg s (inputOf i) run

/-- An input that is absent or within the limit passes the length check. -/
theorem acceptMsg_of_fits {msg : Option (List Byte)} {run : Host.Outcome State Fault Refusal}
    (h : ∀ m, msg = some m → fits s.params m = true) : acceptMsg s msg run = run := by
  cases msg with
  | none => exact acceptMsg_none
  | some m => rw [acceptMsg_some, accept_of_fits (h m rfl)]

/-- An accepted instruction either has a fitting input (or none), or belongs to the unit that is absent. -/
theorem accepted_iff {p : Config.Params} :
    accepted p i = true ↔
      (∀ m, inputOf i = some m → fits p m = true) ∨ (ofHandshakeParser i = true ∧ p.hasHsp = false) := by
  cases hin : inputOf i <;> simp [accepted, hin]

/-- An instruction that is not accepted has an over-long input, and its unit is there. -/
theorem not_accepted {p : Config.Params} (h : accepted p i = false) :
    ∃ m, inputOf i = some m ∧ fits p m = false ∧ (ofHandshakeParser i = true → p.hasHsp = true) := by
  cases hin : inputOf i with
  | none => simp [accepted, hin] at h
  | some m => simpa [accepted, hin] using h

theorem gated_of_accepted (h : accepted s.params i = true) (r : Response) :
    ∃ r', gated i s (.next (s.withResponse r)) = .next (s.withResponse r') := by
  rcases accepted_iff.mp h with hfit | ⟨hunit, habsent⟩
  · simp only [gated, acceptMsg_of_fits hfit]
    split
    · cases hp : s.params.hasHsp with
      | true => exact ⟨r, needHsp_of_present hp⟩
      | false => exact ⟨_, needHsp_of_absent hp⟩
    · exact ⟨r, rfl⟩
  · exact ⟨_, by rw [gated, if_pos hunit, needHsp_of_absent habsent]⟩

theorem gated_of_not_accepted (h : accepted s.params i = false) (run : Host.Outcome State Fault Refusal) :
    gated i s run = .refused .inputTooLong := by
  obtain ⟨m, hin, hlong, hunit⟩ := not_accepted h
  simp only [gated, hin, acceptMsg_some, accept_of_not_fits hlong]
  split
  · exact needHsp_of_present (hunit ‹_›)
  · rfl

/-- A gated answer is a gated response: responding writes the response ports and never fails. -/
theorem exec_gated_of_respond {α : Type} {x : Answer α} {result : α → Response}
    (h : exec i s = gated i s (respond s x result)) : ∃ r, exec i s = gated i s (.next (s.withResponse r)) := by
  obtain ⟨r, hr, -⟩ := respond_cases s result x
  exact ⟨r, hr ▸ h⟩

end Gate

/-- Every instruction is one response behind its checks. -/
theorem exec_eq_gated (i : Instr) (s : State) : ∃ r, exec i s = gated i s (.next (s.withResponse r)) := by
  cases i with
  | splitByte b => exact exec_gated_of_respond (x := splitByte b) (result := pairResult) rfl
  | joinPair l h => exact exec_gated_of_respond (x := .ok (joinPair l h)) (result := byteResult) rfl
  | joinPairWord l h => exact exec_gated_of_respond (x := joinPairWord l h) (result := wordResult) rfl
  | extractBits | splitWord => exact exec_gated_of_respond rfl
  | frame | frameWithCode | extractFirst => exact exec_gated_of_respond rfl
  | makeCode | buildInit | buildArmRead | buildWrite | buildFlush => exact exec_gated_of_respond rfl
  | extractReplay | extractName | extractVersion => exact exec_gated_of_respond rfl
  | wireFrame | uartCommand | uartInit | uartReadArm | uartWrite | uartFlush => exact exec_gated_of_respond rfl
  | replayFrame => exact exec_gated_of_respond rfl
  | handshakeMsg reading => cases reading <;> exact exec_gated_of_respond rfl

/-- An accepted instruction responds, and changes the response ports alone. -/
theorem exec_of_accepted {i : Instr} {s : State} (h : accepted s.params i = true) :
    ∃ r, exec i s = .next (s.withResponse r) := by
  obtain ⟨r, hexec⟩ := exec_eq_gated i s
  rw [hexec]
  exact gated_of_accepted h r

/-- Any other instruction is refused as too long (R9). -/
theorem exec_of_not_accepted {i : Instr} {s : State} (h : accepted s.params i = false) :
    exec i s = .refused .inputTooLong := by
  obtain ⟨r, hexec⟩ := exec_eq_gated i s
  rw [hexec, gated_of_not_accepted h]

/-- Without a limit every instruction is accepted (log 5). -/
theorem accepted_of_unbounded {p : Config.Params} (h : p.maxLen = none) (i : Instr) : accepted p i = true :=
  accepted_iff.mpr (.inl fun m _ => by simp [fits, h])

/-- What decodes is what is presented: the unit's own reading is for bytes of no wire row only (R80). -/
theorem presented_of_decode {channel : Channel} {q : Request} {i : Instr} (h : decode channel q = .ok i) :
    presented channel q = i := by
  simp only [presented, h]

/-- Without a limit a step responds, whatever stands on the inputs. -/
theorem step_of_unbounded {s : State} (h : s.params.maxLen = none) : ∃ r, step s = .next (s.withResponse r) :=
  exec_of_accepted (accepted_of_unbounded h _)

/-- Settles O6: the presented instruction is the decoded one. -/
theorem stepRunsPresentedInstruction : Obligations.StepRunsPresentedInstruction := by
  intro s i h
  rw [step, presented_of_decode h]

/-- Settles O9: the first transaction leaves the parameters as they are, so the second is answered for the same reason. -/
theorem everyTransactionIsAnswered : Obligations.EveryTransactionIsAnswered := by
  intro s h
  obtain ⟨r, hstep⟩ := step_of_unbounded h
  have hparams : (s.withResponse r).params.maxLen = none := by rw [withResponse_params, h]
  obtain ⟨r', hagain⟩ := step_of_unbounded hparams
  exact ⟨s.withResponse r, r, hstep, withResponse_response s r, _, hagain⟩

/-- Settles O10: the two cases of acceptance; a refusal is no next state, so the step's condition is exact. -/
theorem respondsExactlyWhenAccepted : Obligations.RespondsExactlyWhenAccepted := by
  have responds (i : Instr) (s : State) (h : accepted s.params i = true) : ∃ t, exec i s = .next t := by
    obtain ⟨r, hexec⟩ := exec_of_accepted h
    exact ⟨_, hexec⟩
  refine ⟨responds, fun i s => exec_of_not_accepted, fun s => ⟨fun hsafe => ?_, responds _ s⟩⟩
  obtain ⟨t, ht⟩ := hsafe
  by_contra hna
  rw [step, exec_of_not_accepted (Bool.eq_false_iff.mpr hna)] at ht
  cases ht

end Sys2Proof.Proofs

/-! ## What a transaction leaves behind (R20, R22, R25, R47, R103; log 3)

`exec_next` says once what every instruction does where it gives a next state: it writes one response of the shape of R22,
changes nothing else, and the response depends on the instruction and the build parameters alone. The statements on the frame,
on the outcome as a function of the operands and on the shape of the response are its readings. -/

namespace Sys2Proof.Proofs

open Machine Laws

theorem responseOk_bareResponse {st : Status} (h : st ≠ .ok) : responseOk (bareResponse st) := by
  simp [responseOk, bareResponse, h]

/-- The status of an error is not OK (R25, R220). -/
theorem error_status_ne_ok (e : Error) : e.status ≠ .ok := by
  cases e <;> decide

theorem responseOk_byteResult (b : Byte) : responseOk (byteResult b) := by
  have hb := b.isLt
  simp [responseOk, byteResult]
  omega

theorem responseOk_wordResult {w : BitVec 16} (h : w.toNat ≤ 0x407F) : responseOk (wordResult w) := by
  simp [responseOk, wordResult, h]

theorem responseOk_pairResult (p : Byte × Byte) : responseOk (pairResult p) := by
  have hp := p.1.isLt
  simp [responseOk, pairResult]
  omega

theorem responseOk_seqResult (out : List Byte) : responseOk (seqResult out) := by
  simp [responseOk, seqResult]

theorem responseOk_nameResult {codes : List CharCode} (h : ∀ c ∈ codes, c.toNat ≤ 383) :
    responseOk (nameResult codes) := by
  simpa [responseOk, nameResult] using h

/-- JOIN_PAIR_WORD stays within the range of R103 (R113). -/
theorem joinPairWord_le {l h : Byte} {w : BitVec 16} (hw : joinPairWord l h = .ok w) : w.toNat ≤ 0x407F := by
  obtain ⟨g, hg, hsum⟩ := bind_eq_ok hw
  have hl := l.isLt
  have hg7 : g.toNat < 128 := by
    have hdigit := extractBits_group h.toNat 0
    rw [Nat.zero_add, hg] at hdigit
    cases hdigit
    simp
    omega
  cases hsum
  simp [Nat.shiftLeft_eq]
  omega

/-- Every character code of a name is the exact sum of a pair, so at most 383 (R103, R200). -/
theorem nameCodes_le (bytes : List Byte) : ∀ c ∈ nameCodes bytes, c.toNat ≤ 383 := by
  induction bytes using nameCodes.induct with
  | case1 l h rest ih =>
    intro c hc
    rw [nameCodes, List.mem_cons] at hc
    rcases hc with rfl | hc
    · rw [code_toNat]
      exact Nat.le_of_lt_succ (pairSum_lt l h)
    · exact ih c hc
  | case2 => simp [nameCodes]

/-- EXTRACT_NAME answers with the codes of the pairs of some bytes (R200). -/
theorem extractName_codes_le {k : Nat} {msg : Option (List Byte)} {codes : List CharCode} (h : extractName k msg = .ok codes) :
    ∀ c ∈ codes, c.toNat ≤ 383 := by
  unfold extractName at h
  split at h
  · cases h
  · split_ifs at h
    cases h
    exact nameCodes_le _

section Responding

variable {α : Type}

/-- The response to an outcome, without the state it is put in. -/
def responseTo (x : Answer α) (result : α → Response) : Response :=
  match x with
  | .ok v => result v
  | .absent => bareResponse .none
  | .error e => bareResponse e.status

theorem respond_eq (s : State) (x : Answer α) (result : α → Response) :
    respond s x result = .next (s.withResponse (responseTo x result)) := by
  cases x <;> rfl

/-- Only a result can spoil the shape of a response. -/
theorem responseOk_responseTo {x : Answer α} {result : α → Response} (h : ∀ v, x = .ok v → responseOk (result v)) :
    responseOk (responseTo x result) := by
  cases x with
  | ok v => exact h v rfl
  | absent => exact responseOk_bareResponse (by decide)
  | error e => exact responseOk_bareResponse (error_status_ne_ok e)

/-- An instruction that is one gated `respond`, the same outcome in every state, is one well-shaped response behind its
checks. -/
theorem gated_responseOk_of_respond {i : Instr} {x : Answer α} {result : α → Response}
    (hok : ∀ v, x = .ok v → responseOk (result v)) (h : ∀ s, exec i s = gated i s (respond s x result)) :
    ∃ r, responseOk r ∧ ∀ s, exec i s = gated i s (.next (s.withResponse r)) :=
  ⟨responseTo x result, responseOk_responseTo hok, fun s => by rw [h s, respond_eq]⟩

end Responding

/-- `exec_eq_gated` with what it leaves open: the response has the shape of R22, and it is the same in every state. -/
theorem exec_eq_gated_responseOk (i : Instr) :
    ∃ r, responseOk r ∧ ∀ s, exec i s = gated i s (.next (s.withResponse r)) := by
  cases i with
  | joinPair l h =>
    exact gated_responseOk_of_respond (x := .ok (joinPair l h)) (fun b _ => responseOk_byteResult b) fun _ => rfl
  | extractBits | makeCode =>
    exact gated_responseOk_of_respond (fun b _ => responseOk_byteResult b) fun _ => rfl
  | joinPairWord =>
    exact gated_responseOk_of_respond (fun _ hw => responseOk_wordResult (joinPairWord_le hw)) fun _ => rfl
  | splitByte b =>
    exact gated_responseOk_of_respond (x := splitByte b) (fun p _ => responseOk_pairResult p) fun _ => rfl
  | extractVersion =>
    exact gated_responseOk_of_respond (fun p _ => responseOk_pairResult p) fun _ => rfl
  | splitWord | frame | frameWithCode | extractFirst | buildInit | buildArmRead | buildWrite | buildFlush | extractReplay =>
    exact gated_responseOk_of_respond (fun out _ => responseOk_seqResult out) fun _ => rfl
  | extractName =>
    exact gated_responseOk_of_respond (fun _ hn => responseOk_nameResult (extractName_codes_le hn)) fun _ => rfl
  | wireFrame | uartCommand | uartInit | uartReadArm | uartWrite | uartFlush | replayFrame =>
    exact gated_responseOk_of_respond (fun out _ => responseOk_seqResult out) fun _ => rfl
  | handshakeMsg reading =>
    cases reading with
    | version => exact gated_responseOk_of_respond (fun p _ => responseOk_pairResult p) fun _ => rfl
    | name =>
      exact gated_responseOk_of_respond (fun _ hn => responseOk_nameResult (extractName_codes_le hn)) fun _ => rfl

/-- The checks look at the instruction and the build parameters alone: they let it run, answer IllegalOp for the absent unit
(R80), or refuse it as too long (R9). -/
theorem gated_cases (i : Instr) (p : Config.Params) :
    (∀ s, s.params = p → ∀ run, gated i s run = run) ∨
      (∀ s, s.params = p → ∀ run, gated i s run = .next (s.withResponse (bareResponse .illegalOp))) ∨
      (∀ s, s.params = p → ∀ run, gated i s run = .refused .inputTooLong) := by
  by_cases habsent : ofHandshakeParser i = true ∧ p.hasHsp = false
  · obtain ⟨hunit, hp⟩ := habsent
    refine .inr (.inl ?_)
    rintro s rfl run
    rw [gated, if_pos hunit, needHsp_of_absent hp]
  cases hacc : accepted p i with
  | false =>
    refine .inr (.inr ?_)
    rintro s rfl run
    exact gated_of_not_accepted hacc run
  | true =>
    have hfit := (accepted_iff.mp hacc).resolve_right habsent
    refine .inl ?_
    rintro s rfl run
    simp only [gated, acceptMsg_of_fits hfit]
    split
    · next hunit => exact needHsp_of_present (Bool.eq_true_of_not_eq_false fun hp => habsent ⟨hunit, hp⟩)
    · rfl

/-- What every instruction does where it gives a next state: it writes a response of the shape of R22, and the same response in
every state with the same build parameters. -/
theorem exec_next {i : Instr} {s t : State} (h : exec i s = .next t) :
    ∃ r, responseOk r ∧ t = s.withResponse r ∧
      ∀ s' : State, s'.params = s.params → exec i s' = .next (s'.withResponse r) := by
  obtain ⟨r, hok, hall⟩ : ∃ r, responseOk r ∧
      ∀ s' : State, s'.params = s.params → exec i s' = .next (s'.withResponse r) := by
    obtain ⟨r, hok, hexec⟩ := exec_eq_gated_responseOk i
    rcases gated_cases i s.params with hrun | hillegal | hrefused
    · exact ⟨r, hok, fun s' hp => (hexec s').trans (hrun s' hp _)⟩
    · exact ⟨_, responseOk_bareResponse (by decide), fun s' hp => (hexec s').trans (hillegal s' hp _)⟩
    · rw [hexec s, hrefused s rfl] at h
      cases h
  exact ⟨r, hok, Host.Outcome.next.inj (h.symm.trans (hall s rfl)), hall⟩

/-- A response of the right shape on the ports is the invariant. -/
theorem inv_withResponse {s : State} {r : Response} (h : responseOk r) : Inv (s.withResponse r) := by
  rintro r' hr'
  cases hr'
  exact h

/-- Settles O44: the response a step writes has the shape of R22 whatever stood before, so the invariant before is not
needed. -/
theorem responseShapeKeptByEveryStep : Obligations.ResponseShapeKeptByEveryStep := by
  have written (s t : State) (h : step s = .next t) : Inv t ∧ ∃ r, t.response = some r := by
    obtain ⟨r, hr, rfl, -⟩ := exec_next h
    exact ⟨inv_withResponse hr, r, withResponse_response s r⟩
  exact ⟨fun s t _ h => (written s t h).1, written⟩

/-- Settles O40: a next state is the state before with a response written, and that update keeps every other field. -/
theorem transactionWritesResponseOnly : Obligations.TransactionWritesResponseOnly := by
  intro i s t h
  obtain ⟨r, -, rfl, -⟩ := exec_next h
  simp

/-- Settles O41: the response is the same in every state with the same parameters; a step presents its instruction from the
channel and the request alone. -/
theorem outcomeIsFunctionOfOperands : Obligations.OutcomeIsFunctionOfOperands := by
  have sameOutcome (i : Instr) (s s' t : State) (hp : s.params = s'.params) (h : exec i s = .next t) :
      ∃ t', exec i s' = .next t' ∧ t'.response = t.response := by
    obtain ⟨r, -, rfl, hall⟩ := exec_next h
    exact ⟨s'.withResponse r, hall s' hp.symm, by simp⟩
  refine ⟨sameOutcome, fun s s' t hp hc hq h => ?_⟩
  rw [step, ← hc, ← hq]
  exact sameOutcome _ s s' t hp h

/-- Settles O45: no response stands on the ports, so there is none to have a shape. -/
theorem responseShapeHoldsAtReset : Obligations.ResponseShapeHoldsAtReset := by
  intro r h
  cases h

/-- Settles O46: the two fields as `State.reset` writes them (R9, R31). -/
theorem resetLeavesNoResponse : Obligations.ResetLeavesNoResponse := ⟨rfl, reset_hasHsp⟩

end Sys2Proof.Proofs

/-! ## What a request selects (R21, R66, R67; decisions D2, D3, D30) -/

namespace Sys2Proof.Proofs

open Machine Laws Claims

/-- A row of R67's table: the decoder's reading of the ports once `OP` holds the code. -/
theorem selects_of_decodeRequest {op : BitVec 4} {i : Request → Instr}
    (h : ∀ q : Request, decodeRequest { q with op := op } = i q) : selects op i := by
  rintro q rfl
  exact congrArg Except.ok (h q)

/-- Settles O4: the decoder's rows are those of R67's table, and cutting a port to an operand's width takes its low bits. -/
theorem requestSelectsOperationByOp : Obligations.RequestSelectsOperationByOp := by
  unfold Obligations.RequestSelectsOperationByOp
  refine ⟨?_, ?_, ?_, ?_, ?_, ?_, ?_, ?_, ?_, ?_, ?_, ?_, ?_, ?_, ?_, ?_⟩ <;>
    exact selects_of_decodeRequest fun _ => rfl

/-- The operation of this code reads only what R67 names for it: requests that agree on that decode alike. -/
def ReadsNamedOnly (op : BitVec 4) : Prop :=
  ∀ q q' : Request, q.op = op → q'.op = op → sameOperands q q' → decode .request q = decode .request q'

/-- A row of R67's table reads only what its instruction is made of. -/
theorem readsNamedOnly_of_selects {op : BitVec 4} {i : Request → Instr} (hsel : selects op i)
    (h : ∀ q q' : Request, sameOperands { q with op := op } q' → i { q with op := op } = i q') : ReadsNamedOnly op := by
  rintro q q' rfl hop' hsame
  rw [hsel q rfl, hsel q' hop']
  exact congrArg Except.ok (h q q' hsame)

/-- The word of a number depends on the number's low bits alone. -/
theorem ofNat_congr {w m n : Nat} (h : m % 2 ^ w = n % 2 ^ w) : BitVec.ofNat w m = BitVec.ofNat w n :=
  BitVec.eq_of_toNat_eq (by rw [BitVec.toNat_ofNat, BitVec.toNat_ofNat, h])

/-- `IN` matters to a message only where it is present (R21). -/
theorem msg_congr {v v' : Bool} {inp inp' : List Byte} (hvalid : v = v') (hinp : v = true → inp = inp') :
    (if v then some inp else none) = if v' then some inp' else none := by
  subst hvalid
  cases v with
  | true => rw [hinp rfl]
  | false => rfl

/-- Settles O3: for each code, the row of O4 is a function of the operand bits that `sameOperands` compares. -/
theorem requestReadsNamedOperandsOnly : Obligations.RequestReadsNamedOperandsOnly := by
  obtain ⟨h0, h1, h2, h3, h4, h5, h6, h7, h8, h9, hA, hB, hC, hD, hE, hF⟩ := requestSelectsOperationByOp
  have reads (op : BitVec 4) : ReadsNamedOnly op := by
    obtain ⟨n⟩ := op
    fin_cases n
    · exact readsNamedOnly_of_selects h0 fun q q' ⟨ha, hb, hc⟩ => congr (congrArg₂ Instr.extractBits ha hb) hc
    · exact readsNamedOnly_of_selects h1 fun q q' ha => congrArg Instr.splitByte (ofNat_congr ha)
    · exact readsNamedOnly_of_selects h2 fun q q' ⟨ha, hb⟩ => congrArg₂ Instr.splitWord ha hb
    · exact readsNamedOnly_of_selects h3 fun q q' ⟨ha, hb⟩ => congrArg₂ Instr.joinPair (ofNat_congr ha) hb
    · exact readsNamedOnly_of_selects h4 fun q q' ⟨ha, hb⟩ => congrArg₂ Instr.joinPairWord (ofNat_congr ha) hb
    · exact readsNamedOnly_of_selects h5 fun q q' hin => congrArg Instr.frame hin
    · exact readsNamedOnly_of_selects h6 fun q q' ⟨hin, ha⟩ => congrArg₂ Instr.frameWithCode hin (ofNat_congr ha)
    · exact readsNamedOnly_of_selects h7 fun q q' hin => congrArg Instr.extractFirst hin
    · exact readsNamedOnly_of_selects h8 fun q q' ⟨ha, hb⟩ => congrArg₂ Instr.makeCode (ofNat_congr ha) hb
    · exact readsNamedOnly_of_selects h9 fun q q' ⟨hb, ha⟩ => congrArg₂ Instr.buildInit hb ha
    · exact readsNamedOnly_of_selects hA fun q q' ⟨hb, ha⟩ => congrArg₂ Instr.buildArmRead hb (ofNat_congr ha)
    · exact readsNamedOnly_of_selects hB fun q q' ⟨hb, hin⟩ => congrArg₂ Instr.buildWrite hb hin
    · exact readsNamedOnly_of_selects hC fun q q' hb => congrArg Instr.buildFlush hb
    · exact readsNamedOnly_of_selects hD fun q q' hin => congrArg Instr.extractReplay hin
    · exact readsNamedOnly_of_selects hE fun q q' ⟨ha, hv, hin⟩ => congrArg₂ Instr.extractName ha (msg_congr hv hin)
    · exact readsNamedOnly_of_selects hF fun q q' ⟨hv, hin⟩ => congrArg Instr.extractVersion (msg_congr hv hin)
  intro q q' hop hsame
  exact reads q.op q q' rfl hop.symm hsame

end Sys2Proof.Proofs

/-! ## Splits and joins of one value (R41, R44, R111 to R113)

The units of a value at 14 bits are its two lowest digits to base 128. Both joins are arithmetic on such digits. -/

namespace Sys2Proof.Proofs

open Machine Laws

/-- SPLIT_WORD at a legal width never fails: digits to base 128, least significant first (R111). -/
theorem splitWord_legal (v : Value) {n : Nat} (h : n = 7 ∨ n = 14 ∨ n = 21) :
    splitWord v n = .ok ((List.range (n / 7)).map fun k => BitVec.ofNat 8 (v.toNat / 2 ^ (7 * k) % 128)) := by
  rw [splitWord, if_pos h, groups_eq]
  simp only [Nat.zero_add]

/-- The two units of a value at 14 bits (R111, decision D8). -/
theorem splitWord_14 (v : Value) :
    splitWord v 14 = .ok [BitVec.ofNat 8 (v.toNat % 128), BitVec.ofNat 8 (v.toNat / 128 % 128)] := by
  rw [splitWord_legal v (by decide)]
  simp [List.range_succ]

/-- JOIN_PAIR in arithmetic (R112). -/
theorem joinPair_toNat (l h : Byte) : (joinPair l h).toNat = (l.toNat + 128 * (h.toNat % 2)) % 256 := by
  rw [joinPair, pairSum_eq, BitVec.toNat_ofNat]

/-- JOIN_PAIR_WORD never fails, and its sum in arithmetic (R113). -/
theorem joinPairWord_eq (l h : Byte) :
    joinPairWord l h = .ok (BitVec.ofNat 16 (l.toNat + 128 * (h.toNat % 128))) := by
  have hdigit := extractBits_group h.toNat 0
  rw [Nat.zero_add, pow_zero, Nat.div_one] at hdigit
  have hlt : h.toNat % 128 % 2 ^ 8 = h.toNat % 128 := Nat.mod_eq_of_lt (by omega)
  rw [joinPairWord, hdigit, bind_ok, BitVec.toNat_ofNat, hlt, Nat.shiftLeft_eq, Nat.mul_comm]

/-- JOIN_PAIR_WORD of the two lowest digits of a value gives the value's low 14 bits. -/
theorem joinPairWord_digits (n : Nat) :
    joinPairWord (BitVec.ofNat 8 (n % 128)) (BitVec.ofNat 8 (n / 128 % 128)) = .ok (BitVec.ofNat 16 (n % 0x4000)) := by
  rw [joinPairWord_eq, BitVec.toNat_ofNat, BitVec.toNat_ofNat]
  congr 2
  omega

/-- JOIN_PAIR of the two lowest digits of a value gives the value's low 8 bits: it uses bit 0 of the high unit alone. -/
theorem joinPair_digits (n : Nat) :
    (joinPair (BitVec.ofNat 8 (n % 128)) (BitVec.ofNat 8 (n / 128 % 128))).toNat = n % 256 := by
  rw [joinPair_toNat, BitVec.toNat_ofNat, BitVec.toNat_ofNat]
  omega

/-- The pair of a byte is the two lowest digits of its value: the second digit of a byte is its bit 7 (R44, R110). -/
theorem splitByte_digits (b : Byte) :
    splitByte b = .ok (BitVec.ofNat 8 (b.toNat % 128), BitVec.ofNat 8 (b.toNat / 128 % 128)) := by
  have hb := b.isLt
  rw [splitByte_eq, Nat.mod_eq_of_lt (a := b.toNat / 128) (by omega)]

/-- Settles O17: both splits give the two lowest digits of the value, so the joins of the digits apply to either. -/
theorem unitsAgreeAcrossWidths : Obligations.UnitsAgreeAcrossWidths := by
  refine ⟨fun v hv => ?_, fun b => ?_, fun v => ?_⟩
  · refine ⟨_, _, _, splitWord_14 v, joinPairWord_digits v.toNat, ?_⟩
    rw [BitVec.toNat_ofNat]
    omega
  · have hb := b.isLt
    have hsame : (b.setWidth 32 : Value).toNat = b.toNat := BitVec.toNat_setWidth_of_le (by decide)
    refine ⟨_, _, splitByte_digits b, ?_, ?_⟩
    · rw [joinPairWord_digits, Nat.mod_eq_of_lt (by omega), BitVec.ofNat_toNat]
    · rw [splitWord_14, hsame]
  · exact ⟨_, _, splitWord_14 v, joinPair_digits v.toNat⟩

end Sys2Proof.Proofs

/-! ## Repeating a transaction (R20, R47) -/

namespace Sys2Proof.Proofs

open Machine Laws

/-- Settles O42: the response a step writes depends on the parameters and on what the inputs present, and a step writes neither;
so the second step writes the response that already stands. -/
theorem repeatedTransactionChangesNothing : Obligations.RepeatedTransactionChangesNothing := by
  intro s t h
  obtain ⟨r, -, rfl, hall⟩ := exec_next h
  rw [step, withResponse_channel, withResponse_request, hall _ (withResponse_params s r), withResponse_withResponse]

end Sys2Proof.Proofs

/-! ## Groups and pairs read back (R41, R42, R71 to R73, R78, R79)

Both directions for each parameter layout: what a layout writes, its row reads; and where units have a row's shape, the layout
of what the row reads writes these units again. -/

namespace Sys2Proof.Proofs

open Machine Laws

/-- The low 7 bits of a group's byte are the group (R78). -/
theorem extractLsb'_layGroup (g : BitVec 7) : (layGroup g).extractLsb' 0 7 = g := by
  rw [layGroup, BitVec.extractLsb'_setWidth_of_le (by decide), BitVec.extractLsb'_eq_self]

/-- A unit is the byte of its own low 7 bits (R50, R78). -/
theorem layGroup_of_unit {b : Byte} (h : b.toNat < 0x80) : layGroup (b.extractLsb' 0 7) = b := by
  apply BitVec.eq_of_toNat_eq
  simp [layGroup]
  omega

/-- A unit that is 0 or 1 is the byte of its bit 0 (R73). -/
theorem setWidth_of_bit {b : Byte} (h : b.toNat < 2) : (b.extractLsb' 0 1).setWidth 8 = b := by
  apply BitVec.eq_of_toNat_eq
  simp
  omega

/-- The INIT row reads the rate whose groups stand in the frame (R71). -/
theorem uartInitRow_layBaud (port : BitVec 4) (baud : BitVec 21) :
    uartInitRow port (layBaud baud) = some (.uartInit port baud) := by
  have hgroups : (baud.extractLsb' 14 7 ++ baud.extractLsb' 7 7 ++ baud.extractLsb' 0 7 : BitVec 21) = baud := by
    rw [BitVec.extractLsb'_append_extractLsb'_eq_extractLsb' (by decide),
      BitVec.extractLsb'_append_extractLsb'_eq_extractLsb' (by decide)]
    exact BitVec.extractLsb'_eq_self
  simp only [uartInitRow, layBaud, extractLsb'_layGroup, hgroups]

/-- The READ_ARM row reads the length whose groups stand in the frame (R72). -/
theorem uartReadArmRow_layReadLength (port : BitVec 4) (n : BitVec 14) :
    uartReadArmRow port (layReadLength n) = some (.uartReadArm port n) := by
  have hgroups : (n.extractLsb' 7 7 ++ n.extractLsb' 0 7 : BitVec 14) = n := by
    rw [BitVec.extractLsb'_append_extractLsb'_eq_extractLsb' (by decide)]
    exact BitVec.extractLsb'_eq_self
  simp only [uartReadArmRow, layReadLength, extractLsb'_layGroup, hgroups, if_true]

/-- The WRITE row reads the data whose pairs stand in the frame (R73). -/
theorem uartWriteRow_layPairs (port : BitVec 4) (data : List Byte) :
    uartWriteRow port (layPairs data) = some (.uartWrite port data) := by
  rw [uartWriteRow, readPairs_layPairs, Option.map_some]

/-- Three units are the groups of the rate they make (R71). -/
theorem layBaud_of_units {g0 g1 g2 : Byte} (h0 : g0.toNat < 0x80) (h1 : g1.toNat < 0x80) (h2 : g2.toNat < 0x80) :
    layBaud (g2.extractLsb' 0 7 ++ g1.extractLsb' 0 7 ++ g0.extractLsb' 0 7 : BitVec 21) = [g0, g1, g2] := by
  rw [layBaud, BitVec.extractLsb'_append_eq_of_add_le (by decide), BitVec.extractLsb'_append_eq_of_le (by decide),
    BitVec.extractLsb'_append_eq_of_add_le (by decide), BitVec.extractLsb'_append_eq_of_le (by decide),
    BitVec.extractLsb'_append_eq_of_le (by decide)]
  simp only [Nat.sub_self, BitVec.extractLsb'_eq_self]
  rw [layGroup_of_unit h0, layGroup_of_unit h1, layGroup_of_unit h2]

/-- The literal 0 and two units are the parameters of the length they make (R72). -/
theorem layReadLength_of_units {lo hi : Byte} (hlo : lo.toNat < 0x80) (hhi : hi.toNat < 0x80) :
    layReadLength (hi.extractLsb' 0 7 ++ lo.extractLsb' 0 7 : BitVec 14) = [Config.armReadLiteral, lo, hi] := by
  rw [layReadLength, BitVec.extractLsb'_append_eq_of_add_le (by decide), BitVec.extractLsb'_append_eq_of_le (by decide)]
  simp only [Nat.sub_self, BitVec.extractLsb'_eq_self, layGroup_of_unit hlo, layGroup_of_unit hhi]

/-- Units that read as pairs are the pairs of what they read as (R73). -/
theorem layPairs_of_readPairs {units data : List Byte} (hunits : ∀ b ∈ units, b.toNat < 0x80)
    (h : readPairs units = some data) : layPairs data = units := by
  induction units using readPairs.induct generalizing data with
  | case1 => cases h; rfl
  | case2 => cases h
  | case3 l hi rest hbit ih =>
    simp only [readPairs, if_pos hbit, Option.map_eq_some_iff] at h
    obtain ⟨data', hrest, rfl⟩ := h
    have hl : l.toNat < 0x80 := hunits l (by simp)
    rw [layPairs, BitVec.extractLsb'_append_eq_of_add_le (by decide), BitVec.extractLsb'_append_eq_of_le (by decide),
      ih (fun b hb => hunits b (by simp [hb])) hrest]
    simp only [Nat.sub_self, BitVec.extractLsb'_eq_self, layGroup_of_unit hl, setWidth_of_bit hbit]
  | case4 l hi rest hbit => simp [readPairs, hbit] at h

end Sys2Proof.Proofs

/-! ## Decoding an encoded instruction (R67, R69 to R76, R84; logs 6, 8, 9) -/

namespace Sys2Proof.Proofs

open Machine Laws

/-- A UART command frame with parameters of its sub-command's own shape is that sub-command's row (R84). -/
theorem classifyUart_of_row {code : SubCode} {port : BitVec 4} {ps : List Byte} {i : Instr}
    (h : uartRow code port ps = some i) : classifyUart code port ps = i := by
  rw [classifyUart, h, Option.getD_some]

/-- The sub-command's own row takes exactly the parameters that the general row leaves to it (R84). -/
theorem uartRow_isSome (code : SubCode) (port : BitVec 4) (ps : List Byte) :
    (uartRow code port ps).isSome = specificParams code ps := by
  cases code with
  | init =>
    match ps with
    | [] | [_] | [_, _] | [_, _, _] => rfl
    | _ :: _ :: _ :: _ :: _ => simp [uartRow, uartInitRow, specificParams]
  | write => simp [uartRow, uartWriteRow, specificParams]
  | readArm =>
    match ps with
    | [] | [_] | [_, _] => rfl
    | [z, _, _] => by_cases hz : z = Config.armReadLiteral <;> simp [uartRow, uartReadArmRow, specificParams, hz]
    | _ :: _ :: _ :: _ :: _ => simp [uartRow, uartReadArmRow, specificParams]
  | flush => cases ps <;> rfl

/-- A UART command frame with any other parameters is the general row (R70, R84). -/
theorem classifyUart_of_not_specific {code : SubCode} {port : BitVec 4} {ps : List Byte}
    (h : specificParams code ps = false) : classifyUart code port ps = .uartCommand code port ps := by
  rw [← uartRow_isSome code port, Option.isSome_eq_false_iff, Option.isNone_iff_eq_none] at h
  rw [classifyUart, h, Option.getD_none]

/-- A UART command frame with 7-bit-clean parameters is decoded by its code, its port and its parameters (R84). -/
theorem decodeFrame_layUart {code : SubCode} {port : BitVec 4} {ps : List Byte} (h : ∀ b ∈ ps, b.toNat < 0x80) :
    decodeFrame (layFrame (layUart code port ps)) = .ok (classifyUart code port ps) := by
  rw [decodeFrame_layFrame (layUart_units h), classifyFrame_layUart]

/-- A payload of no UART command frame is a plain frame's (R69, R84). -/
theorem classifyFrame_of_not_uartShaped {p : List Byte} (h : uartShaped p = false) : classifyFrame p = .wireFrame p := by
  match p with
  | [] | [_] => rfl
  | sel :: fused :: _ =>
    by_cases hsel : sel = Config.selUart
    · have hcode : subCodeOfNibble (fused.extractLsb' 4 4) = none := by simpa [uartShaped, hsel] using h
      simp only [classifyFrame, if_pos hsel, hcode]
    · simp only [classifyFrame, if_neg hsel]

/-- A replay frame without an inner end marker is decoded as it was laid (R75, R81). -/
theorem decodeReplay_layFrame {x1 x2 : Byte} {units : List Byte} (h : Config.endMarker ∉ x1 :: x2 :: units) :
    decodeReplay (layFrame (x1 :: x2 :: units)) = .ok (.replayFrame x1 x2 units) := by
  have hany : (x1 :: x2 :: units).any (fun b => decide (b = Config.endMarker)) = false := by
    rw [List.any_eq_false]
    intro b hb heq
    exact h (of_decide_eq_true heq ▸ hb)
  rw [decodeReplay, betweenMarkers_layFrame]
  simp only [hany, Bool.false_eq_true, if_false]

/-- No end marker is in a sequence that `notEnd` passes. -/
theorem all_notEnd_iff {u : List Byte} : u.all notEnd = true ↔ Config.endMarker ∉ u := by
  rw [List.all_eq_true]
  constructor
  · exact fun h hm => of_decide_eq_true (h _ hm) rfl
  · exact fun h b hb => decide_eq_true fun heq => h (heq ▸ hb)

/-- A replay frame is well-formed exactly where no end marker stands before its last byte (R81). -/
theorem wellFormed_replayFrame {x1 x2 : Byte} {units : List Byte} :
    WellFormed (.replayFrame x1 x2 units) = true ↔ Config.endMarker ∉ x1 :: x2 :: units := by
  rw [← all_notEnd_iff, WellFormed, List.all_cons, List.all_cons, Bool.and_assoc]

/-- What an operand's port holds of a narrower operand is the operand (R21). -/
theorem setWidth_port {w : Nat} (b : BitVec w) (h : w ≤ 32) : (b.setWidth 32).setWidth w = b := by
  rw [BitVec.setWidth_setWidth_of_le b h, BitVec.setWidth_eq]

/-- Every request decodes, to the operation it selects (R66). -/
theorem decode_request {q : Request} {i : Instr} (h : decodeRequest q = i) : decode .request q = .ok i :=
  congrArg Except.ok h

/-- Settles O1: a request's ports hold its operands; a frame is classified by its payload, and well-formedness is that no more
specific row takes it; a replay frame and a handshake message are read as they were laid. -/
theorem decodeOfEncodedInstruction : Obligations.DecodeOfEncodedInstruction := by
  intro i hwf
  cases i with
  | extractBits | splitWord | frame | extractFirst | buildInit | buildWrite | buildFlush | extractReplay => rfl
  | splitByte b => exact decode_request (congrArg Instr.splitByte (setWidth_port b (by decide)))
  | joinPair low7 high1 => exact decode_request (congrArg (Instr.joinPair · high1) (setWidth_port low7 (by decide)))
  | joinPairWord low7 high7 => exact decode_request (congrArg (Instr.joinPairWord · high7) (setWidth_port low7 (by decide)))
  | frameWithCode payload code => exact decode_request (congrArg (Instr.frameWithCode payload) (setWidth_port code (by decide)))
  | makeCode code port => exact decode_request (congrArg (Instr.makeCode · port) (setWidth_port code (by decide)))
  | buildArmRead port n => exact decode_request (congrArg (Instr.buildArmRead port) (setWidth_port n (by decide)))
  | extractName _ msg => cases msg <;> rfl
  | extractVersion msg => cases msg <;> rfl
  | wireFrame payload =>
    simp only [WellFormed, Bool.and_eq_true, unitsOnly_iff, Bool.not_eq_true'] at hwf
    obtain ⟨hunits, hplain⟩ := hwf
    exact (decodeFrame_layFrame hunits).trans (congrArg _ (classifyFrame_of_not_uartShaped hplain))
  | uartCommand code port ps =>
    simp only [WellFormed, Bool.and_eq_true, unitsOnly_iff, Bool.not_eq_true'] at hwf
    obtain ⟨hunits, hgeneral⟩ := hwf
    exact (decodeFrame_layUart hunits).trans (congrArg _ (classifyUart_of_not_specific hgeneral))
  | uartInit port baud =>
    exact (decodeFrame_layUart (layBaud_units baud)).trans (congrArg _ (classifyUart_of_row (uartInitRow_layBaud port baud)))
  | uartReadArm port n =>
    exact (decodeFrame_layUart (layReadLength_units n)).trans
      (congrArg _ (classifyUart_of_row (uartReadArmRow_layReadLength port n)))
  | uartWrite port data =>
    exact (decodeFrame_layUart (layPairs_units data)).trans
      (congrArg _ (classifyUart_of_row (uartWriteRow_layPairs port data)))
  | uartFlush port => exact decodeFrame_layUart (List.forall_mem_nil _)
  | replayFrame x1 x2 units => exact decodeReplay_layFrame (wellFormed_replayFrame.mp hwf)
  | handshakeMsg => rfl

/-- Settles O7: what is presented is what decodes, and the encoding decodes to the instruction. -/
theorem stepRunsEncodedInstruction : Obligations.StepRunsEncodedInstruction := by
  intro s i hwf
  exact stepRunsPresentedInstruction _ i (decodeOfEncodedInstruction i hwf)

end Sys2Proof.Proofs

/-! ## Encoding a decoded wire message (R69 to R76, R84; logs 6, 8, 9) -/

namespace Sys2Proof.Proofs

open Machine Laws

/-- The byte that R84 reads as this sub-command is the one fused of its code and the port in the low nibble (R77). -/
theorem fused_of_nibble {fused : Byte} {code : SubCode} (h : subCodeOfNibble (fused.extractLsb' 4 4) = some code) :
    subCodeByte code ||| (fused.extractLsb' 0 4).setWidth 8 = fused := by
  revert fused
  cases code <;> decide

/-- A payload of the UART shape is a UART command frame's (R70, R84). -/
theorem layUart_of_uartShaped {p : List Byte} (h : uartShaped p = true) : ∃ code port ps, p = layUart code port ps := by
  match p with
  | [] | [_] => cases h
  | sel :: fused :: ps =>
    simp only [uartShaped, Bool.and_eq_true, decide_eq_true_eq, Option.isSome_iff_exists] at h
    obtain ⟨rfl, code, hcode⟩ := h
    exact ⟨code, fused.extractLsb' 0 4, ps, by rw [layUart, fused_of_nibble hcode]⟩

/-- The sub-command's own row is well-formed and writes the bytes of the general row with the same parameters (R70 to R74). -/
theorem encode_uartRow {code : SubCode} {port : BitVec 4} {ps : List Byte} {i : Instr}
    (hunits : ∀ b ∈ ps, b.toNat < 0x80) (h : uartRow code port ps = some i) :
    WellFormed i = true ∧ encode i = encode (.uartCommand code port ps) := by
  cases code with
  | init =>
    simp only [uartRow, uartInitRow] at h
    split at h
    · next g0 g1 g2 =>
      cases h
      simp only [List.forall_mem_cons] at hunits
      obtain ⟨h0, h1, h2, -⟩ := hunits
      exact ⟨rfl, by rw [encode, encode, layBaud_of_units h0 h1 h2]⟩
    · cases h
  | write =>
    simp only [uartRow, uartWriteRow, Option.map_eq_some_iff] at h
    obtain ⟨data, hdata, rfl⟩ := h
    exact ⟨rfl, by rw [encode, encode, layPairs_of_readPairs hunits hdata]⟩
  | readArm =>
    simp only [uartRow, uartReadArmRow] at h
    split at h
    · next z lo hi =>
      split_ifs at h with hz
      cases h
      simp only [List.forall_mem_cons] at hunits
      obtain ⟨-, hlo, hhi, -⟩ := hunits
      exact ⟨rfl, by rw [encode, encode, layReadLength_of_units hlo hhi, hz]⟩
    · cases h
  | flush =>
    simp only [uartRow, uartFlushRow] at h
    split at h
    · cases h
      exact ⟨rfl, rfl⟩
    · cases h

/-- What a UART command frame is classified as is well-formed and writes that frame (R70 to R74, R84). -/
theorem encode_classifyUart {code : SubCode} {port : BitVec 4} {ps : List Byte} (hunits : ∀ b ∈ ps, b.toNat < 0x80) :
    WellFormed (classifyUart code port ps) = true ∧
      encode (classifyUart code port ps) = encode (.uartCommand code port ps) := by
  cases hrow : uartRow code port ps with
  | some i =>
    rw [classifyUart_of_row hrow]
    exact encode_uartRow hunits hrow
  | none =>
    have hgeneral : specificParams code ps = false := by rw [← uartRow_isSome code port, hrow, Option.isSome_none]
    rw [classifyUart_of_not_specific hgeneral]
    simp only [WellFormed, unitsOnly_iff.mpr hunits, hgeneral, Bool.not_false, Bool.and_self, and_self]

/-- What a 7-bit-clean payload is classified as is well-formed and writes the payload's frame (R69, R84). -/
theorem encode_classifyFrame {p : List Byte} (hunits : ∀ b ∈ p, b.toNat < 0x80) :
    WellFormed (classifyFrame p) = true ∧ encode (classifyFrame p) = encode (.wireFrame p) := by
  cases hshape : uartShaped p with
  | true =>
    obtain ⟨code, port, ps, rfl⟩ := layUart_of_uartShaped hshape
    have hps : ∀ b ∈ ps, b.toNat < 0x80 := fun b hb => hunits b (by simp [layUart, hb])
    rw [classifyFrame_layUart]
    exact encode_classifyUart hps
  | false =>
    rw [classifyFrame_of_not_uartShaped hshape]
    simp only [WellFormed, unitsOnly_iff.mpr hunits, hshape, Bool.not_false, Bool.and_self, and_self]

/-- Bytes that decode on the framer's channel are a 7-bit-clean frame, classified by its payload (R69). -/
theorem decodeFrame_eq_ok {bytes : List Byte} {i : Instr} (h : decodeFrame bytes = .ok i) :
    ∃ p, bytes = layFrame p ∧ (∀ b ∈ p, b.toNat < 0x80) ∧ i = classifyFrame p := by
  unfold decodeFrame at h
  split at h
  · cases h
  · next p hp =>
    split_ifs at h with hunits
    cases h
    exact ⟨p, layFrame_of_betweenMarkers hp, unitsOnly_iff.mp hunits, rfl⟩

/-- Bytes that decode on the extractor's channel are a replay frame without an inner end marker (R75, R81). -/
theorem decodeReplay_eq_ok {bytes : List Byte} {i : Instr} (h : decodeReplay bytes = .ok i) :
    ∃ x1 x2 units, bytes = layFrame (x1 :: x2 :: units) ∧ Config.endMarker ∉ x1 :: x2 :: units ∧
      i = .replayFrame x1 x2 units := by
  unfold decodeReplay at h
  split at h
  · cases h
  · next body hbody =>
    split_ifs at h with hend
    split at h
    · next x1 x2 units =>
      cases h
      refine ⟨x1, x2, units, layFrame_of_betweenMarkers hbody, fun hm => hend ?_, rfl⟩
      exact List.any_eq_true.mpr ⟨_, hm, decide_eq_true rfl⟩
    · cases h

/-- Bytes that decode on the parser's channel are a handshake message of three bytes or more (R76). -/
theorem decodeHandshake_eq_ok {reading : HandshakeReading} {bytes : List Byte} {i : Instr}
    (h : decodeHandshake reading bytes = .ok i) :
    ∃ x0 major minorRaw rest, bytes = x0 :: major :: minorRaw :: rest ∧
      i = .handshakeMsg reading x0 (major, minorRaw) rest := by
  unfold decodeHandshake at h
  split at h
  · cases h
    exact ⟨_, _, _, _, rfl, rfl⟩
  · cases h

/-- Settles O2: on each wire channel, what the bytes are where they decode, and that the instruction writes them again. -/
theorem encodeOfDecodedWireMessage : Obligations.EncodeOfDecodedWireMessage := by
  intro ch q i hch h
  cases ch with
  | request => exact absurd rfl hch
  | sysexFramer =>
    obtain ⟨p, hbytes, hunits, rfl⟩ := decodeFrame_eq_ok h
    obtain ⟨hwf, henc⟩ := encode_classifyFrame hunits
    rw [encodeBytes, henc, hbytes]
    exact ⟨hwf, rfl, rfl⟩
  | replayExtractor =>
    obtain ⟨x1, x2, units, hbytes, hend, rfl⟩ := decodeReplay_eq_ok h
    exact ⟨wellFormed_replayFrame.mpr hend, rfl, hbytes.symm⟩
  | handshakeParser reading =>
    obtain ⟨x0, major, minorRaw, rest, hbytes, rfl⟩ := decodeHandshake_eq_ok h
    exact ⟨rfl, rfl, hbytes.symm⟩

end Sys2Proof.Proofs

/-! ## Built frames on the wire (R71 to R74, R84, R151 to R156; log 9) -/

namespace Sys2Proof.Proofs

open Machine Laws

/-- A legal port is the byte of its low 4 bits (R77). -/
theorem setWidth_port_nibble {port : Byte} (h : port.toNat < 16) : (port.setWidth 4).setWidth 8 = port := by
  apply BitVec.eq_of_toNat_eq
  simp
  omega

/-- A sub-command code has an empty low nibble and is a unit (R77, R151). -/
theorem subCodeByte_legal (code : SubCode) : (subCodeByte code).toNat % 16 = 0 ∧ (subCodeByte code).toNat < 0x80 := by
  cases code <;> decide

/-- The builders' common wrapper lays the UART command frame of its sub-command (R70, R156). -/
theorem buildCommand_eq_layUart (code : SubCode) {port : Byte} {ps : List Byte} (hport : port.toNat < 16)
    (hps : ∀ b ∈ ps, b.toNat < 0x80) :
    buildCommand (subCodeByte code) port (.ok ps) = .ok (layFrame (layUart code (port.setWidth 4) ps)) := by
  obtain ⟨hlow, hunit⟩ := subCodeByte_legal code
  rw [buildCommand_legal hlow hunit hport hps, layUart, setWidth_port_nibble hport]

/-- SPLIT_WORD at 21 bits gives the groups of the low 21 bits (R71, R111). -/
theorem splitWord_21_eq_layBaud (v : Value) : splitWord v 21 = .ok (layBaud (v.setWidth 21)) := by
  have hlow : v.toNat % 2 ^ 21 % 128 = v.toNat % 128 := by omega
  have hmid : v.toNat % 2 ^ 21 / 2 ^ 7 % 128 = v.toNat / 2 ^ 7 % 128 := by omega
  have hhigh : v.toNat % 2 ^ 21 / 2 ^ 14 = v.toNat / 2 ^ 14 % 128 := by omega
  rw [splitWord_legal v (by decide), layBaud_eq, BitVec.toNat_setWidth, hlow, hmid, hhigh]
  simp [List.range_succ]

/-- BUILD_INIT lays the INIT frame of the low 21 bits of the rate (R71, R152). -/
theorem buildInit_eq_encodeBytes {port : Byte} {baud : Value} (hport : port.toNat < 16) (hbaud : baud.toNat < 2 ^ 31) :
    buildInit port baud = .ok (encodeBytes (.uartInit (port.setWidth 4) (baud.setWidth 21))) := by
  have hsign : baud.getLsbD 31 = false := by
    rw [BitVec.getLsbD, Nat.testBit_lt_two_pow hbaud]
  rw [buildInit, hsign, if_neg Bool.false_ne_true, splitWord_21_eq_layBaud]
  exact buildCommand_eq_layUart .init hport (layBaud_units _)

/-- BUILD_ARM_READ lays the READ_ARM frame of the length (R72, R153). -/
theorem buildArmRead_eq_encodeBytes {port : Byte} {n : BitVec 16} (hport : port.toNat < 16) (hn : n.toNat < 0x4000) :
    buildArmRead port n = .ok (encodeBytes (.uartReadArm (port.setWidth 4) (n.setWidth 14))) := by
  have hlow := extractBits_group n.toNat 0
  have hhigh := extractBits_group n.toNat 7
  have hgroups : [Config.armReadLiteral, BitVec.ofNat 8 (n.toNat / 2 ^ 0 % 128), BitVec.ofNat 8 (n.toNat / 2 ^ 7 % 128)] =
      layReadLength (n.setWidth 14) := by
    rw [layReadLength_eq, BitVec.toNat_setWidth, Nat.mod_eq_of_lt hn, pow_zero, Nat.div_one,
      Nat.mod_eq_of_lt (a := n.toNat / 2 ^ 7) (by omega)]
    rfl
  rw [buildArmRead, if_neg (Nat.not_le.mpr hn), hlow, bind_ok, hhigh, bind_ok, hgroups]
  exact buildCommand_eq_layUart .readArm hport (layReadLength_units _)

/-- BUILD_WRITE lays the WRITE frame of the data (R73, R154). -/
theorem buildWrite_eq_encodeBytes {port : Byte} (hport : port.toNat < 16) (data : List Byte) :
    buildWrite port data = .ok (encodeBytes (.uartWrite (port.setWidth 4) data)) := by
  rw [buildWrite, packBytes_eq, ← layPairs_eq]
  exact buildCommand_eq_layUart .write hport (layPairs_units data)

/-- BUILD_FLUSH lays the FLUSH frame (R74, R155). -/
theorem buildFlush_eq_encodeBytes {port : Byte} (hport : port.toNat < 16) :
    buildFlush port = .ok (encodeBytes (.uartFlush (port.setWidth 4))) :=
  buildCommand_eq_layUart .flush hport (List.forall_mem_nil _)

/-- A frame built as the encoding of a well-formed row of the framer's channel is read back as that row. -/
theorem built_readsBack {i : Instr} {built : Answer (List Byte)} (q : Request) (hwf : WellFormed i = true)
    (hch : (encode i).1 = .sysexFramer) (hbuilt : built = .ok (encodeBytes i)) :
    ∃ f, built = .ok f ∧ encodeBytes i = f ∧ decode .sysexFramer { q with inp := f } = .ok i := by
  have hdecode := decodeOfEncodedInstruction i hwf
  rw [hch] at hdecode
  exact ⟨_, hbuilt, rfl, hdecode⟩

/-- Settles O28: each builder lays the encoding of its row, and an encoding is read back. -/
theorem builtFramesReadBackAsTheirRows : Obligations.BuiltFramesReadBackAsTheirRows := by
  intro port q hport
  refine ⟨fun baud hbaud => ?_, fun n hn => ?_, fun data => ?_, ?_⟩
  · exact built_readsBack q rfl rfl (buildInit_eq_encodeBytes hport hbaud)
  · exact built_readsBack q rfl rfl (buildArmRead_eq_encodeBytes hport hn)
  · exact built_readsBack q rfl rfl (buildWrite_eq_encodeBytes hport data)
  · exact built_readsBack q rfl rfl (buildFlush_eq_encodeBytes hport)

end Sys2Proof.Proofs

/-! ## What a wire row answers (R65, R69 to R76; logs 7, 8, 20) -/

namespace Sys2Proof.Proofs

open Machine Laws Claims

/-- A row of no optional unit is accepted only where what it takes from `IN` fits (R9). -/
theorem fits_of_accepted {p : Config.Params} {i : Instr} {m : List Byte} (h : accepted p i = true)
    (hunit : ofHandshakeParser i = false) (hin : inputOf i = some m) : fits p m = true := by
  rcases accepted_iff.mp h with hfit | ⟨hparser, -⟩
  · exact hfit m hin
  · rw [hunit] at hparser
    cases hparser

/-- Reading a frame of units answers them (R132). -/
theorem readFrame_units {s : State} {p : List Byte} (hunits : ∀ b ∈ p, b.toNat < 0x80)
    (hfit : fits s.params (layFrame p) = true) : readFrame (layFrame p) s = okWith s { out := some p } :=
  readFrame_layFrame (units_no_marker hunits).1 hfit

/-- Settles O36: the row is the framer's reading of the payload's frame. -/
theorem plainFrameIsReadAsItsPayload : Obligations.PlainFrameIsReadAsItsPayload := by
  intro payload s hunits hfit
  exact readFrame_units hunits hfit

/-- The port-fused byte is the sum of code and port (R77). -/
theorem fused_eq_sum (code : SubCode) (port : BitVec 4) :
    subCodeByte code ||| port.setWidth 8 = byte (codeValue code + port.toNat) := by
  revert port
  cases code <;> decide

/-- Reading an accepted UART command frame answers selector, port-fused byte and parameters (R70, R157). -/
theorem readFrame_layUart {s : State} {code : SubCode} {port : BitVec 4} {ps : List Byte} {i : Instr}
    (hunits : ∀ b ∈ ps, b.toNat < 0x80) (hacc : accepted s.params i = true) (hunit : ofHandshakeParser i = false)
    (hin : inputOf i = some (layFrame (layUart code port ps))) :
    readFrame (layFrame (layUart code port ps)) s =
      okWith s { out := some (0x60#8 :: byte (codeValue code + port.toNat) :: ps) } := by
  rw [readFrame_units (layUart_units hunits) (fits_of_accepted hacc hunit hin), layUart, fused_eq_sum]

/-- Settles O37: each row is the framer's reading of its frame, and the parameters are those of the row's layout. -/
theorem uartFramesAreReadAsTheirPayloads : Obligations.UartFramesAreReadAsTheirPayloads := by
  intro port s
  refine ⟨fun code params hunits hacc => ?_, fun baud hacc => ?_, fun n hacc => ?_, fun data hacc => ?_, fun hacc => ?_⟩
  · exact readFrame_layUart hunits hacc rfl rfl
  · rw [← layBaud_eq]
    exact readFrame_layUart (layBaud_units baud) hacc rfl rfl
  · have hparams : [0x00#8, byte (n.toNat % 128), byte (n.toNat / 128)] = layReadLength n := (layReadLength_eq n).symm
    rw [hparams]
    exact readFrame_layUart (layReadLength_units n) hacc rfl rfl
  · rw [← layPairs_eq]
    exact readFrame_layUart (layPairs_units data) hacc rfl rfl
  · exact readFrame_layUart (List.forall_mem_nil _) hacc rfl rfl

/-- The regrouping is JOIN_PAIR over the units two at a time (R112, R180). -/
theorem joinsPairs_joinPairs (units : List Byte) : joinsPairs units (joinPairs units) := by
  refine ⟨joinPairs_length units, fun k l h hl hh => ?_⟩
  rw [joinPairs_get hl hh, joinPair, pairSum_eq]

/-- EXTRACT_REPLAY of one frame regroups its data area (R180, R181). -/
theorem extractReplay_layFrame {body : List Byte} (h : Config.endMarker ∉ body) :
    extractReplay (layFrame body) = joinPairs (body.drop 2) := by
  have hturn := replayScan_frame (pre := []) (gap := []) (post := []) (body.length + 1) [] List.not_mem_nil h
  have hstop := replayScan_no_start (pre := layFrame body) (tail := []) (body.length + 1) (body.drop 2) List.not_mem_nil
  rw [List.append_nil] at hstop
  have hlen : (layFrame body).length = body.length + 1 + 1 := by simp [layFrame]
  rw [extractReplay, hlen]
  exact congrArg joinPairs (hturn.trans hstop)

/-- Settles O38: the frame holds no inner end marker, so its data area is the units. -/
theorem replayFrameIsReadAsJoinedUnits : Obligations.ReplayFrameIsReadAsJoinedUnits := by
  intro x1 x2 units s h1 h2 hunits hfit
  have hend : Config.endMarker ∉ x1 :: x2 :: units :=
    List.not_mem_cons_of_ne_of_not_mem h1.symm (List.not_mem_cons_of_ne_of_not_mem h2.symm hunits)
  refine ⟨joinPairs units, ?_, joinsPairs_joinPairs units⟩
  calc exec (.replayFrame x1 x2 units) s
      = respond s (.ok (extractReplay (layFrame (x1 :: x2 :: units)))) seqResult := accept_of_fits hfit
    _ = okWith s { out := some (joinPairs units) } := by rw [extractReplay_layFrame hend]; rfl

/-- The codes of a name are the exact sums of the pairs (R200). -/
theorem namesPairs_nameCodes (bytes : List Byte) : namesPairs bytes (nameCodes bytes) :=
  ⟨nameCodes_length bytes, fun _ l h hl hh => ⟨_, nameCodes_get hl hh, (code_toNat l h).trans (pairSum_eq l h)⟩⟩

/-- EXTRACT_NAME of a message shorter than the start index or with an odd rest (R200). -/
theorem extractName_absent {k : Nat} {m : List Byte} (h : m.length < k ∨ (m.length - k) % 2 = 1) :
    extractName k (some m) = .absent := by
  simp only [extractName]
  split_ifs with h1 h2
  · rfl
  · rfl
  · exact absurd h (not_or.mpr ⟨h1, h2⟩)

/-- EXTRACT_NAME of any other message (R200). -/
theorem extractName_pairs {k : Nat} {m : List Byte} (h : ¬(m.length < k ∨ (m.length - k) % 2 = 1)) :
    extractName k (some m) = .ok (nameCodes (m.drop k)) := by
  obtain ⟨hlong, heven⟩ := not_or.mp h
  simp only [extractName, if_neg hlong, if_neg heven]

/-- Settles O39: the row is answered by the operation its reading names, on the whole message. -/
theorem handshakeMessageIsReadAsVersionOrName : Obligations.HandshakeMessageIsReadAsVersionOrName := by
  intro x0 major minorRaw rest s hunit hfit
  refine ⟨readHandshake_version hunit hfit, fun startIndex => ⟨fun hnone => ?_, fun hpairs => ?_⟩⟩
  · have habsent := extractName_absent (m := x0 :: major :: minorRaw :: rest) hnone
    exact (readHandshake_name startIndex hunit hfit).trans (congrArg (respond s · nameResult) habsent)
  · have hcodes := extractName_pairs (m := x0 :: major :: minorRaw :: rest) hpairs
    exact ⟨_, (readHandshake_name startIndex hunit hfit).trans (congrArg (respond s · nameResult) hcodes),
      namesPairs_nameCodes _⟩

/-- Settles O35: the unit's check comes before any operand is looked at. -/
theorem handshakeOpsIllegalWithoutUnit : Obligations.HandshakeOpsIllegalWithoutUnit := by
  intro i s hunit habsent
  cases i with
  | extractName | extractVersion => exact needHsp_of_absent habsent
  | handshakeMsg reading => exact readHandshake_of_absent reading _ habsent
  | _ => cases hunit

end Sys2Proof.Proofs

/-! ## Bytes of no wire row, and words of the opcode table (R57, R67, R71, R72, R74, R80; logs 9, 12, 20) -/

namespace Sys2Proof.Proofs

open Machine

/-- What does not decode is presented as the channel's own reading (R80). -/
theorem presented_of_error {channel : Channel} {q : Request} {e : DecodeError} (h : decode channel q = .error e) :
    presented channel q = readBy channel q := by
  simp only [presented, h]

/-- Settles O8: the step runs the channel's own reading; a request always decodes. -/
theorem stepReadsBytesOfNoWireRow : Obligations.StepReadsBytesOfNoWireRow := by
  intro s e h
  have reads (ch : Channel) (hch : s.channel = ch) : step s = exec (readBy ch s.request) s := by
    rw [step, presented_of_error h, hch]
  refine ⟨reads _, reads _, reads _, fun startIndex => reads _, fun hch => ?_⟩
  rw [hch] at h
  cases h

/-- Settles O5: the decoder evaluated on the eight words. -/
theorem tableWordsDecodeToTheirRows : Obligations.TableWordsDecodeToTheirRows := by
  refine ⟨?_, ?_, ?_, ?_, ?_, ?_, ?_, ?_⟩ <;> decide

end Sys2Proof.Proofs

/-! ## The law of EXTRACT_BITS (R100, R101) -/

namespace Sys2Proof.Proofs

open Machine Laws Claims

/-- The byte of `n` bits has no bit above them. -/
theorem bitsByte_toNat_lt (v lo n : Nat) : (byte (bits v lo n)).toNat < 2 ^ n :=
  calc (byte (bits v lo n)).toNat
      = bits v lo n % 2 ^ 8 := BitVec.toNat_ofNat ..
    _ ≤ bits v lo n := Nat.mod_le _ _
    _ < 2 ^ n := bits_lt v lo n

/-- Below both the range and the byte's width, bit `j` of the byte is bit `lo + j` of the value. -/
theorem bitsByte_getLsbD {w : Nat} (value : BitVec w) (lo : Nat) {n j : Nat} (hn : j < n) (h8 : j < 8) :
    (byte (bits value.toNat lo n)).getLsbD j = value.getLsbD (lo + j) := by
  rw [BitVec.getLsbD_ofNat, bits_testBit, decide_eq_true hn, decide_eq_true h8, Bool.true_and, Bool.true_and,
    BitVec.testBit_toNat]

/-- EXTRACT_BITS of a legal range answers the byte of the range's bits (R100). -/
theorem exec_extractBits_legal (value : Value) {startBit endBit : Byte} (s : State)
    (h1 : startBit.toNat ≤ endBit.toNat) (h2 : endBit.toNat ≤ startBit.toNat + 7) :
    exec (.extractBits value startBit endBit) s =
      okWith s
        { r := some ((byte (bits value.toNat startBit.toNat (endBit.toNat - startBit.toNat + 1))).setWidth 16) } :=
  congrArg (respond s · byteResult) (extractBits_legal h1 h2)

/-- EXTRACT_BITS of any other range ends with RangeError (R100). -/
theorem exec_extractBits_illegal (value : Value) {startBit endBit : Byte} (s : State)
    (h : endBit.toNat < startBit.toNat ∨ startBit.toNat + 7 < endBit.toNat) :
    exec (.extractBits value startBit endBit) s = endsWith s .rangeError :=
  congrArg (respond s · byteResult) (extractBits_illegal h)

/-- Settles O11: the result is the byte of the range's bits, and a legal range is at most the byte wide. -/
theorem extractBitsLaw : Obligations.ExtractBitsLaw := by
  intro value startBit endBit s
  refine ⟨fun ⟨h1, h2⟩ => ?_, fun hrange => ?_⟩
  · exact ⟨_, exec_extractBits_legal value s h1 h2, bitsByte_toNat_lt _ _ _,
      fun j hj => bitsByte_getLsbD value startBit.toNat (by omega) (by omega)⟩
  · exact exec_extractBits_illegal value s (by omega)

end Sys2Proof.Proofs

/-! ## The SevenBitCodec operations (R79, R80, R110 to R114)

An operation answers its function's outcome, and its function is arithmetic to base 128: `splitByte_eq`, `splitWord_legal`,
`joinPair_toNat` and `joinPairWord_eq`. The round trips are facts on digits. -/

namespace Sys2Proof.Proofs

open Machine Laws Claims

/-- A byte on the 16 bits of `R` keeps its value (R22). -/
theorem byte_setWidth_R {n : Nat} (h : n < 256) : (byte n).setWidth 16 = BitVec.ofNat 16 n :=
  BitVec.setWidth_ofNat_of_le_of_lt (by decide) h

/-- SPLIT_WORD at a reserved width is IllegalOp (R80, R111, decision D5). -/
theorem splitWord_illegal (v : Value) {n : Nat} (h : ¬(n = 7 ∨ n = 14 ∨ n = 21)) :
    splitWord v n = .error .illegalOp := by
  rw [splitWord, if_neg h]

/-- Settles O13: the word is split where the width is legal, and an illegal width is the error taken. -/
theorem splitWordGivesGroups : Obligations.SplitWordGivesGroups := by
  intro v w s
  exact ⟨fun hlegal => congrArg (respond s · seqResult) (splitWord_legal v hlegal),
    fun hreserved => congrArg (respond s · seqResult) (splitWord_illegal v hreserved)⟩

/-- The three units of a value at 21 bits (R111). -/
theorem splitWord_21 (v : Value) :
    splitWord v 21 =
      .ok [byte (v.toNat % 128), byte (v.toNat / 2 ^ 7 % 128), byte (v.toNat / 2 ^ 14 % 128)] := by
  rw [splitWord_legal v (by decide)]
  simp [List.range_succ]

/-- The three lowest digits to base 128 recombine to the value's low 21 bits (R114 b). -/
theorem digits_21_sum (n : Nat) :
    (byte (n % 128)).toNat + (byte (n / 2 ^ 7 % 128)).toNat * 2 ^ 7 + (byte (n / 2 ^ 14 % 128)).toNat * 2 ^ 14 =
      n % 2 ^ 21 := by
  simp only [BitVec.toNat_ofNat]
  omega

/-- JOIN_PAIR of the pair of a byte is the byte (R114 a). -/
theorem joinPair_digits_byte (b : Byte) :
    joinPair (byte (b.toNat % 128)) (byte (b.toNat / 128 % 128)) = b := by
  apply BitVec.eq_of_toNat_eq
  rw [joinPair_digits, Nat.mod_eq_of_lt b.isLt]

/-- The pair of a byte is its remainder and its quotient by 128, and no other pair (R110). -/
theorem splitByte_eq_ok_iff {b l h : Byte} :
    splitByte b = .ok (l, h) ↔ l.toNat = b.toNat % 128 ∧ h.toNat = b.toNat / 128 := by
  have hb := b.isLt
  rw [splitByte_eq, Answer.ok.injEq, Prod.mk.injEq, ← BitVec.toNat_inj, ← BitVec.toNat_inj, BitVec.toNat_ofNat,
    BitVec.toNat_ofNat]
  omega

/-- Splitting a joined pair gives it back for units only: the join adds bit 7 of an unmasked low unit to the high bit and
drops all but bit 0 of the high unit (R114, decision D9). -/
theorem splitByte_joinPair_iff (l h : Byte) :
    splitByte (joinPair l h) = .ok (l, h) ↔ l.toNat < 0x80 ∧ h.toNat < 2 := by
  rw [splitByte_eq_ok_iff, joinPair_toNat]
  omega

/-- Settles O16: each split gives the digits of the value, which its join sums up again; the clause on 14 bits is that of
R44. -/
theorem splitThenJoinReturnsValue : Obligations.SplitThenJoinReturnsValue := by
  obtain ⟨at14, -, -⟩ := unitsAgreeAcrossWidths
  refine ⟨fun b => ?_, fun v hv => ?_, at14, splitByte_joinPair_iff⟩
  · exact ⟨_, _, splitByte_digits b, joinPair_digits_byte b⟩
  · exact ⟨_, _, _, splitWord_21 v, (digits_21_sum v.toNat).trans (Nat.mod_eq_of_lt hv)⟩

/-- Settles O12: the pair is remainder and quotient by 128, and its first byte fits `R`. -/
theorem splitByteGivesLowAndHighUnit : Obligations.SplitByteGivesLowAndHighUnit := by
  intro b s
  rw [← byte_setWidth_R (n := b.toNat % 128) (by omega)]
  exact congrArg (respond s · pairResult) (splitByte_eq b)

/-- Settles O14: the join is the byte of the pair's sum, so its value on `R` is the sum modulo 256. -/
theorem joinPairGivesTruncatedSum : Obligations.JoinPairGivesTruncatedSum := by
  intro low7 high1 s
  rw [← joinPair_toNat, BitVec.ofNat_toNat]
  rfl

/-- Settles O15: the sum of a byte and 128 times 7 bits is at most 0x407F, so 16 bits hold it exactly. -/
theorem joinPairWordGivesExactSum : Obligations.JoinPairWordGivesExactSum := by
  intro low7 high7 s
  have hlow := low7.isLt
  refine ⟨_, congrArg (respond s · wordResult) (joinPairWord_eq low7 high7), ?_, joinPairWord_le (joinPairWord_eq low7 high7)⟩
  rw [BitVec.toNat_ofNat]
  exact Nat.mod_eq_of_lt (by omega)

end Sys2Proof.Proofs

/-! ## The SysexFramer operations (R130 to R133)

EXTRACT_FIRST is settled by the shape of its buffer: a frame stands in it, or no end marker follows a start marker
(`extractFirst_cases`). -/

namespace Sys2Proof.Proofs

open Machine Laws Claims

/-- Where no start marker stands, no end marker stands after one. -/
theorem no_end_after_start_of_no_start {raw : List Byte} (h : Config.startMarker ∉ raw) (i j : Nat) (_ : i < j)
    (hi : raw[i]? = some Config.startMarker) : raw[j]? ≠ some Config.endMarker :=
  absurd (List.mem_of_getElem? hi) h

/-- Where no end marker follows the first start marker, none follows a later one. -/
theorem no_end_after_start_of_no_end {pre rest : List Byte} (hpre : Config.startMarker ∉ pre)
    (hrest : Config.endMarker ∉ rest) (i j : Nat) (hij : i < j)
    (hi : (pre ++ Config.startMarker :: rest)[i]? = some Config.startMarker) :
    (pre ++ Config.startMarker :: rest)[j]? ≠ some Config.endMarker := by
  intro hj
  have hfirst : pre.length ≤ i := by
    by_contra hlt
    rw [List.getElem?_append_left (by omega)] at hi
    exact hpre (List.mem_of_getElem? hi)
  obtain ⟨k, rfl⟩ : ∃ k, j = pre.length + (k + 1) := ⟨j - pre.length - 1, by omega⟩
  rw [List.getElem?_append_right (by omega), Nat.add_sub_cancel_left, List.getElem?_cons_succ] at hj
  exact hrest (List.mem_of_getElem? hj)

/-- What EXTRACT_FIRST can do: it answers the body of the first frame, or is absent where no end marker stands after a
start marker (R132). -/
theorem extractFirst_cases (raw : List Byte) :
    (∃ pre p post, raw = pre ++ Config.startMarker :: (p ++ Config.endMarker :: post) ∧ Config.startMarker ∉ pre ∧
      Config.endMarker ∉ p ∧ extractFirst raw = .ok p) ∨
    ((∀ i j : Nat, i < j → raw[i]? = some Config.startMarker → raw[j]? ≠ some Config.endMarker) ∧
      extractFirst raw = .absent) := by
  rcases split_at_first Config.startMarker raw with hraw | ⟨pre, rest, rfl, hpre⟩
  · exact .inr ⟨no_end_after_start_of_no_start hraw, extractFirst_no_start hraw⟩
  rcases split_at_first Config.endMarker rest with hrest | ⟨p, post, rfl, hp⟩
  · exact .inr ⟨no_end_after_start_of_no_end hpre hrest, extractFirst_no_end hpre hrest⟩
  · exact .inl ⟨pre, p, post, rfl, hpre, hp, extractFirst_frame hpre hp⟩

/-- EXTRACT_FIRST on an accepted buffer responds with its function's outcome. -/
theorem exec_extractFirst_of_fits {raw : List Byte} {s : State} (hfit : fits s.params raw = true) :
    exec (.extractFirst raw) s = respond s (extractFirst raw) seqResult :=
  accept_of_fits hfit

/-- Settles O20: each shape of the buffer gives its outcome. -/
theorem extractFirstGivesFirstPayload : Obligations.ExtractFirstGivesFirstPayload := by
  intro raw s hfit
  rw [exec_extractFirst_of_fits hfit]
  rcases extractFirst_cases raw with ⟨pre, p, post, hraw, hpre, hp, hok⟩ | ⟨hnone, habsent⟩
  · exact .inl ⟨pre, p, post, hraw, hpre, hp, congrArg (respond s · seqResult) hok⟩
  · exact .inr ⟨hnone, congrArg (respond s · seqResult) habsent⟩

/-- EXTRACT_FIRST of a frame between bytes without a start marker and any bytes (R133). -/
theorem extractFirst_layFrame_between {pre p : List Byte} (hpre : Config.startMarker ∉ pre) (hp : Config.endMarker ∉ p)
    (post : List Byte) : extractFirst (pre ++ layFrame p ++ post) = .ok p := by
  simpa [layFrame] using extractFirst_frame (post := post) hpre hp

/-- Settles O21: a payload of units holds no end marker, and a code below 0x80 is one more unit. -/
theorem extractFirstOfFrameReturnsPayload : Obligations.ExtractFirstOfFrameReturnsPayload := by
  refine ⟨fun p hunits => ?_, fun p c hunits hcode => ?_⟩
  · have hend := (units_no_marker hunits).1
    exact ⟨_, frame_of_units hunits, extractFirst_layFrame hend,
      fun pre post hpre => extractFirst_layFrame_between hpre hend post⟩
  · have hall : ∀ b ∈ c :: p, b.toNat < 0x80 := List.forall_mem_cons.mpr ⟨hcode, hunits⟩
    exact ⟨_, frame_of_units hall, extractFirst_layFrame (units_no_marker hall).1⟩

/-- Settles O22: an answer comes from a first frame, which stays the first when bytes are added behind it. -/
theorem extractFirstStableAsBufferGrows : Obligations.ExtractFirstStableAsBufferGrows := by
  intro raw more p hok
  rcases extractFirst_cases raw with ⟨pre, q, post, rfl, hpre, hq, hframe⟩ | ⟨-, habsent⟩
  · obtain rfl : q = p := Answer.ok.inj (hframe.symm.trans hok)
    simpa using extractFirst_frame (post := post ++ more) hpre hq
  · cases habsent.symm.trans hok

/-- The response to FRAME of a 7-bit-clean payload is the frame (R130). -/
theorem respond_frame_of_units (s : State) {p : List Byte} (h : ∀ b ∈ p, b.toNat < 0x80) :
    respond s (frame p) seqResult = okWith s { out := some (layFrame p) } :=
  congrArg (respond s · seqResult) (frame_of_units h)

/-- The response to FRAME of any other payload is FormatError (R130). -/
theorem respond_frame_of_high (s : State) {p : List Byte} (h : ∃ b ∈ p, 0x80 ≤ b.toNat) :
    respond s (frame p) seqResult = endsWith s .formatError :=
  congrArg (respond s · seqResult) (frame_of_high h)

/-- Settles O18: an accepted payload is framed where it is 7-bit clean, and is the error otherwise. -/
theorem frameWrapsUnitsOnly : Obligations.FrameWrapsUnitsOnly := by
  intro payload s hfit
  have hexec : exec (.frame payload) s = respond s (frame payload) seqResult := accept_of_fits hfit
  rw [hexec]
  exact ⟨respond_frame_of_units s, respond_frame_of_high s⟩

/-- Settles O19: the transaction is FRAME of the code before the payload; the limit is on the payload alone. -/
theorem frameWithCodeWrapsCodeFirst : Obligations.FrameWithCodeWrapsCodeFirst := by
  intro payload code s hfit
  have hexec : exec (.frameWithCode payload code) s = respond s (frame (code :: payload)) seqResult := accept_of_fits hfit
  rw [hexec]
  exact ⟨fun hunits => respond_frame_of_units s (List.forall_mem_cons.mpr hunits),
    fun hhigh => respond_frame_of_high s ((List.exists_mem_cons_iff ..).mpr hhigh)⟩

end Sys2Proof.Proofs

/-! ## The UartCommandBuilder operations (R71 to R74, R77, R150 to R157; log 13)

A legal command is the frame of its wire row (`buildInit_eq_encodeBytes` and its like), and that frame is written out in bytes
once for all four sub-commands (`layFrame_layUart_bytes`). Every frame a builder gives is FRAME of a payload under the selector
(`buildCommand_eq_ok`), so its payload is 7-bit clean and holds no marker. -/

namespace Sys2Proof.Proofs

open Machine Laws Claims

/-- The UART command frame of a legal port, byte by byte (R70, R77). -/
theorem layFrame_layUart_bytes (code : SubCode) {port : Byte} (hport : port.toNat < 16) (ps : List Byte) :
    layFrame (layUart code (port.setWidth 4) ps) =
      [0xF0#8, 0x60#8, byte (codeValue code + port.toNat)] ++ ps ++ [0xF7#8] := by
  have hnibble : (port.setWidth 4).toNat = port.toNat := by
    rw [BitVec.toNat_setWidth, Nat.mod_eq_of_lt hport]
  rw [layUart, fused_eq_sum, hnibble]
  rfl

/-- The groups of the low 21 bits of a rate are its three lowest digits to base 128 (R71, R111). -/
theorem layBaud_setWidth (v : Value) :
    layBaud (v.setWidth 21) = [byte (v.toNat % 128), byte (v.toNat / 2 ^ 7 % 128), byte (v.toNat / 2 ^ 14 % 128)] :=
  Answer.ok.inj ((splitWord_21_eq_layBaud v).symm.trans (splitWord_21 v))

/-- A length below the limit is its literal 0 and two digits to base 128 (R72). -/
theorem layReadLength_setWidth {n : BitVec 16} (hn : n.toNat < 0x4000) :
    layReadLength (n.setWidth 14) = [0x00#8, byte (n.toNat % 128), byte (n.toNat / 128)] := by
  rw [layReadLength_eq, BitVec.toNat_setWidth, Nat.mod_eq_of_lt hn]
  rfl

/-- Two units per data byte (R73). -/
theorem layPairs_length (data : List Byte) : (layPairs data).length = 2 * data.length := by
  induction data with
  | nil => rfl
  | cons b bs ih => simp only [layPairs, List.length_cons, ih]; omega

/-- The pair of data byte `i` stands at `2 i`: its remainder, then its quotient by 128 (R73, R79). -/
theorem layPairs_get {data : List Byte} {i : Nat} {b : Byte} (h : data[i]? = some b) :
    (layPairs data)[2 * i]? = some (byte (b.toNat % 128)) ∧ (layPairs data)[2 * i + 1]? = some (byte (b.toNat / 128)) := by
  rw [layPairs_eq]
  induction data generalizing i with
  | nil => cases h
  | cons x xs ih =>
    cases i with
    | zero => cases h; exact ⟨rfl, rfl⟩
    | succ i => exact ih h

/-- In a frame of three bytes, parameters and an end, parameter `k` stands at `3 + k`. -/
theorem getElem?_param {a b c d x : Byte} {ps : List Byte} {k : Nat} (h : ps[k]? = some x) :
    ([a, b, c] ++ ps ++ [d])[3 + k]? = some x := by
  obtain ⟨hk, -⟩ := List.getElem?_eq_some_iff.mp h
  rw [Nat.add_comm]
  exact (List.getElem?_append_left hk).trans h

/-- In a frame of three bytes, parameters and an end, the end stands behind the parameters. -/
theorem getElem?_end (a b c d : Byte) (ps : List Byte) : ([a, b, c] ++ ps ++ [d])[3 + ps.length]? = some d := by
  rw [Nat.add_comm]
  exact List.getElem?_concat_length

/-- Bit 31 of a rate is set from 2^31 on (R152, decision D7). -/
theorem getLsbD_31 (v : Value) : v.getLsbD 31 = decide (2 ^ 31 ≤ v.toNat) :=
  (BitVec.msb_eq_getLsbD_last v).symm.trans (BitVec.msb_eq_decide v)

/-- BUILD_INIT of a rate and a port in range: the INIT frame with the digits of the rate (R71, R152). -/
theorem buildInit_legal {port : Byte} {baud : Value} (hbaud : baud.toNat < 2 ^ 31) (hport : port.toNat < 16) :
    buildInit port baud =
      .ok [0xF0#8, 0x60#8, byte (0x10 + port.toNat), byte (baud.toNat % 128), byte (baud.toNat / 2 ^ 7 % 128),
        byte (baud.toNat / 2 ^ 14 % 128), 0xF7#8] :=
  calc buildInit port baud
      = .ok (layFrame (layUart .init (port.setWidth 4) (layBaud (baud.setWidth 21)))) := buildInit_eq_encodeBytes hport hbaud
    _ = _ := by rw [layFrame_layUart_bytes .init hport, layBaud_setWidth]; rfl

/-- BUILD_INIT of any other rate or port (R152). -/
theorem buildInit_illegal {port : Byte} {baud : Value} (h : ¬(baud.toNat < 2 ^ 31 ∧ port.toNat < 16)) :
    buildInit port baud = .error .formatError := by
  by_cases hneg : 2 ^ 31 ≤ baud.toNat
  · rw [buildInit, getLsbD_31, if_pos (decide_eq_true hneg)]
  · have hport : 16 ≤ port.toNat := by omega
    rw [buildInit, getLsbD_31, if_neg (by simpa using hneg), buildCommand_illegal hport]

/-- BUILD_ARM_READ of a length and a port in range: the READ_ARM frame with the digits of the length (R72, R153). -/
theorem buildArmRead_legal {port : Byte} {n : BitVec 16} (hn : n.toNat < 0x4000) (hport : port.toNat < 16) :
    buildArmRead port n =
      .ok [0xF0#8, 0x60#8, byte (0x30 + port.toNat), 0x00#8, byte (n.toNat % 128), byte (n.toNat / 128), 0xF7#8] :=
  calc buildArmRead port n
      = .ok (layFrame (layUart .readArm (port.setWidth 4) (layReadLength (n.setWidth 14)))) :=
        buildArmRead_eq_encodeBytes hport hn
    _ = _ := by rw [layFrame_layUart_bytes .readArm hport, layReadLength_setWidth hn]; rfl

/-- BUILD_ARM_READ of any other length or port (R153). -/
theorem buildArmRead_illegal {port : Byte} {n : BitVec 16} (h : ¬(n.toNat < 0x4000 ∧ port.toNat < 16)) :
    buildArmRead port n = .error .formatError := by
  by_cases hlong : 0x4000 ≤ n.toNat
  · rw [buildArmRead, if_pos hlong]
  · have hport : 16 ≤ port.toNat := by omega
    rw [buildArmRead, if_neg hlong, buildCommand_illegal hport]

/-- BUILD_WRITE of a port in range: the WRITE frame with the pairs of the data (R73, R154). -/
theorem buildWrite_legal {port : Byte} (hport : port.toNat < 16) (data : List Byte) :
    buildWrite port data = .ok ([0xF0#8, 0x60#8, byte (0x20 + port.toNat)] ++ layPairs data ++ [0xF7#8]) :=
  (buildWrite_eq_encodeBytes hport data).trans (congrArg Answer.ok (layFrame_layUart_bytes .write hport (layPairs data)))

/-- BUILD_FLUSH of a port in range: the FLUSH frame (R74, R155). -/
theorem buildFlush_legal {port : Byte} (hport : port.toNat < 16) :
    buildFlush port = .ok [0xF0#8, 0x60#8, byte (0x60 + port.toNat), 0xF7#8] :=
  (buildFlush_eq_encodeBytes hport).trans (congrArg Answer.ok (layFrame_layUart_bytes .flush hport []))

/-- BUILD_WRITE on accepted data responds with its function's outcome. -/
theorem exec_buildWrite_of_fits {port : Byte} {data : List Byte} {s : State} (hfit : fits s.params data = true) :
    exec (.buildWrite port data) s = respond s (buildWrite port data) seqResult :=
  accept_of_fits hfit

/-- What FRAME answers is the frame of a payload of units (R130). -/
theorem frame_eq_ok {p f : List Byte} (h : frame p = .ok f) : (∀ b ∈ p, b.toNat < 0x80) ∧ f = layFrame p := by
  by_cases hunits : ∀ b ∈ p, b.toNat < 0x80
  · exact ⟨hunits, Answer.ok.inj (h.symm.trans (frame_of_units hunits))⟩
  · push Not at hunits
    cases h.symm.trans (frame_of_high hunits)

/-- What the builders' common wrapper answers is the frame of a payload of units under the selector (R156). -/
theorem buildCommand_eq_ok {code port : Byte} {params : Answer (List Byte)} {f : List Byte}
    (h : buildCommand code port params = .ok f) :
    ∃ p, (∀ b ∈ Config.selUart :: p, b.toNat < 0x80) ∧ f = layFrame (Config.selUart :: p) := by
  obtain ⟨c, -, hparams⟩ := bind_eq_ok h
  obtain ⟨ps, -, hframe⟩ := bind_eq_ok hparams
  exact ⟨c :: ps, frame_eq_ok hframe⟩

/-- Every frame a builder answers is one of the common wrapper (R152 to R156). -/
theorem buildCommand_of_built {f : List Byte}
    (h : (∃ port baud, buildInit port baud = .ok f) ∨ (∃ port n, buildArmRead port n = .ok f) ∨
      (∃ port data, buildWrite port data = .ok f) ∨ (∃ port, buildFlush port = .ok f)) :
    ∃ code port params, buildCommand code port params = .ok f := by
  rcases h with ⟨port, baud, h⟩ | ⟨port, n, h⟩ | ⟨port, data, h⟩ | ⟨port, h⟩
  · rw [buildInit] at h
    split at h
    · cases h
    · exact ⟨_, _, _, h⟩
  · rw [buildArmRead] at h
    split at h
    · cases h
    · exact ⟨_, _, _, h⟩
  · exact ⟨_, _, _, h⟩
  · exact ⟨_, _, _, h⟩

/-- The frame of a payload without markers has one start marker and one end marker (R69). -/
theorem layFrame_count {p : List Byte} (hend : Config.endMarker ∉ p) (hstart : Config.startMarker ∉ p) :
    (layFrame p).count Config.startMarker = 1 ∧ (layFrame p).count Config.endMarker = 1 := by
  have hne : Config.startMarker ≠ Config.endMarker := by decide
  simp [layFrame, List.count_eq_zero.mpr hend, List.count_eq_zero.mpr hstart, hne, hne.symm]

/-- Settles O29: a built frame is the frame of a payload of units under the selector, and units are no markers. -/
theorem builtFrameHoldsOneMarkerPair : Obligations.BuiltFrameHoldsOneMarkerPair := by
  intro f hbuilt
  obtain ⟨code, port, params, hcommand⟩ := buildCommand_of_built hbuilt
  obtain ⟨p, hunits, rfl⟩ := buildCommand_eq_ok hcommand
  obtain ⟨hend, hstart⟩ := units_no_marker hunits
  obtain ⟨hcountStart, hcountEnd⟩ := layFrame_count hend hstart
  exact ⟨p, rfl, hcountStart, hcountEnd, extractFirst_layFrame hend⟩

/-- Settles O24: the legal command is the INIT row's frame, whose parameters are the digits of the rate. -/
theorem buildInitGivesInitFrame : Obligations.BuildInitGivesInitFrame := by
  intro port baud s
  exact ⟨fun ⟨hbaud, hport⟩ => congrArg (respond s · seqResult) (buildInit_legal hbaud hport),
    fun hillegal => congrArg (respond s · seqResult) (buildInit_illegal hillegal)⟩

/-- Settles O25: the legal command is the READ_ARM row's frame, whose parameters are 0 and the digits of the length. -/
theorem buildArmReadGivesReadArmFrame : Obligations.BuildArmReadGivesReadArmFrame := by
  intro port n s
  exact ⟨fun ⟨hn, hport⟩ => congrArg (respond s · seqResult) (buildArmRead_legal hn hport),
    fun hillegal => congrArg (respond s · seqResult) (buildArmRead_illegal hillegal)⟩

/-- Settles O26: the legal command is the WRITE row's frame, so a data byte's pair stands behind the three fixed bytes where
it stands among the pairs. -/
theorem buildWriteGivesWriteFrame : Obligations.BuildWriteGivesWriteFrame := by
  intro port data s hfit
  rw [exec_buildWrite_of_fits hfit]
  refine ⟨fun hport => ?_, fun hport => congrArg (respond s · seqResult) (buildCommand_illegal hport)⟩
  refine ⟨_, congrArg (respond s · seqResult) (buildWrite_legal hport data), ?_, rfl, ?_, fun i b hb => ?_⟩
  · simp only [List.length_append, List.length_cons, List.length_nil, layPairs_length]
    omega
  · rw [← layPairs_length]
    exact getElem?_end ..
  · obtain ⟨hlow, hhigh⟩ := layPairs_get hb
    have hindex : 4 + 2 * i = 3 + (2 * i + 1) := by omega
    rw [hindex]
    exact ⟨getElem?_param hlow, getElem?_param hhigh⟩

/-- Settles O23: a legal code and port have no bit in common, so the or is the sum. -/
theorem makeCodeFusesCodeAndPort : Obligations.MakeCodeFusesCodeAndPort := by
  intro code port s
  refine ⟨fun ⟨hcode, hport⟩ => ?_, fun hillegal => congrArg (respond s · byteResult) (makeCode_illegal hillegal)⟩
  have hlt := code.isLt
  exact ⟨by omega, fused_toNat hcode hport, congrArg (respond s · byteResult) (makeCode_legal hcode hport)⟩

/-- Settles O27: the legal command is the FLUSH row's frame, which has no parameters. -/
theorem buildFlushGivesFlushFrame : Obligations.BuildFlushGivesFlushFrame := by
  intro port s
  exact ⟨fun hport => congrArg (respond s · seqResult) (buildFlush_legal hport),
    fun hport => congrArg (respond s · seqResult) (buildCommand_illegal hport)⟩

end Sys2Proof.Proofs

/-! ## The ReplayExtractor operation (R180 to R186; log 13)

Every buffer is a stream (`exists_stream`), and the scan goes through a stream frame by frame, so EXTRACT_REPLAY regroups the
data areas of its frames (`extractReplay_stream`). The statements on the result and on its length are readings of these two. -/

namespace Sys2Proof.Proofs

open Machine Laws Claims

/-- The units of a stream's data areas in order, a data area being a frame's body without its first two bytes (R181). -/
def dataUnits (frames : List (List Byte × List Byte)) : List Byte := frames.flatMap fun f => f.2.drop 2

@[simp] theorem dataUnits_nil : dataUnits [] = [] := rfl

@[simp] theorem dataUnits_cons (gap body : List Byte) (frames : List (List Byte × List Byte)) :
    dataUnits ((gap, body) :: frames) = body.drop 2 ++ dataUnits frames := rfl

@[simp] theorem stream_nil (tail : List Byte) : stream [] tail = tail := rfl

@[simp] theorem stream_cons (gap body : List Byte) (frames : List (List Byte × List Byte)) (tail : List Byte) :
    stream ((gap, body) :: frames) tail =
      gap ++ Config.startMarker :: (body ++ Config.endMarker :: stream frames tail) := by
  simp [stream]

theorem streamParts_cons {gap body : List Byte} {frames : List (List Byte × List Byte)} {tail : List Byte} :
    streamParts ((gap, body) :: frames) tail ↔
      (Config.startMarker ∉ gap ∧ Config.endMarker ∉ body) ∧ streamParts frames tail := by
  simp only [streamParts, List.forall_mem_cons, and_assoc]

/-- Every buffer is a stream: its first frame is cut off as long as there is one. -/
theorem exists_stream (raw : List Byte) : ∃ frames tail, raw = stream frames tail ∧ streamParts frames tail := by
  rcases split_at_first Config.startMarker raw with hraw | ⟨gap, rest, hraw, hgap⟩
  · exact ⟨[], raw, rfl, List.forall_mem_nil _, .inl hraw⟩
  rcases split_at_first Config.endMarker rest with hrest | ⟨body, post, hrest, hbody⟩
  · exact ⟨[], raw, rfl, List.forall_mem_nil _, .inr ⟨gap, rest, hraw, hgap, hrest⟩⟩
  have hshorter : post.length < raw.length := by simp [hraw, hrest]; omega
  obtain ⟨frames, tail, hpost, hparts⟩ := exists_stream post
  exact ⟨(gap, body) :: frames, tail, by rw [stream_cons, ← hpost, ← hrest, hraw],
    streamParts_cons.mpr ⟨⟨hgap, hbody⟩, hparts⟩⟩
termination_by raw.length

/-- The scan of a stream from where it starts, with fuel for its frames, adds the units of its data areas (R180 to R184). -/
theorem replayScan_stream {frames : List (List Byte × List Byte)} {tail : List Byte} (h : streamParts frames tail)
    (pre : List Byte) {fuel : Nat} (hfuel : frames.length ≤ fuel) (flat : List Byte) :
    replayScan (pre ++ stream frames tail) fuel pre.length flat = flat ++ dataUnits frames := by
  induction frames generalizing pre fuel flat with
  | nil =>
    obtain ⟨-, hstart | ⟨gap, rest, rfl, hgap, hrest⟩⟩ := h
    · simpa using replayScan_no_start fuel flat hstart
    · simpa using replayScan_no_end fuel flat hgap hrest
  | cons frame frames ih =>
    obtain ⟨gap, body⟩ := frame
    obtain ⟨⟨hgap, hbody⟩, hparts⟩ := streamParts_cons.mp h
    obtain ⟨fuel, rfl⟩ := Nat.exists_eq_add_one_of_ne_zero (Nat.ne_zero_of_lt hfuel)
    have hrest := ih hparts (pre ++ (gap ++ Config.startMarker :: (body ++ [Config.endMarker])))
      (Nat.le_of_succ_le_succ hfuel) (flat ++ body.drop 2)
    rw [stream_cons, replayScan_frame fuel flat hgap hbody]
    simpa using hrest

/-- A stream is at least as long as it has frames, so the scan's fuel is enough (R185). -/
theorem frames_length_le (frames : List (List Byte × List Byte)) (tail : List Byte) :
    frames.length ≤ (stream frames tail).length := by
  induction frames with
  | nil => exact Nat.zero_le _
  | cons frame frames ih =>
    obtain ⟨gap, body⟩ := frame
    simp
    omega

/-- EXTRACT_REPLAY of a stream regroups the units of its data areas (R180). -/
theorem extractReplay_stream {frames : List (List Byte × List Byte)} {tail : List Byte} (h : streamParts frames tail) :
    extractReplay (stream frames tail) = joinPairs (dataUnits frames) :=
  congrArg joinPairs (replayScan_stream h [] (frames_length_le frames tail) [])

/-- EXTRACT_REPLAY on an accepted buffer ends OK with its function's result. -/
theorem exec_extractReplay_of_fits {raw : List Byte} {s : State} (hfit : fits s.params raw = true) :
    exec (.extractReplay raw) s = okWith s { out := some (extractReplay raw) } :=
  accept_of_fits hfit

/-- Settles O30: every buffer is a stream, and of a stream the units of the data areas are regrouped. -/
theorem replayJoinsUnitsOfAllFrames : Obligations.ReplayJoinsUnitsOfAllFrames := by
  refine ⟨exists_stream, fun frames tail s hparts hfit => ?_⟩
  refine ⟨joinPairs (dataUnits frames), ?_, joinsPairs_joinPairs (dataUnits frames)⟩
  rw [exec_extractReplay_of_fits hfit, extractReplay_stream hparts]

/-- Regrouping the pairs of data gives the data: JOIN_PAIR undoes SPLIT_BYTE (R73, R114 a). -/
theorem joinPairs_layPairs (data : List Byte) : joinPairs (layPairs data) = data := by
  rw [layPairs_eq]
  induction data with
  | nil => rfl
  | cons b bs ih =>
    have hb := b.isLt
    have hjoin := joinPair_digits_byte b
    rw [Nat.mod_eq_of_lt (a := b.toNat / 128) (by omega)] at hjoin
    exact congrArg₂ List.cons hjoin ih

/-- Settles O31: the built frame is the WRITE row's, whose body without selector and port-fused byte is the pairs of the data. -/
theorem replayOfBuiltWriteReturnsData : Obligations.ReplayOfBuiltWriteReturnsData := by
  intro port data s hport hfit
  rw [exec_buildWrite_of_fits hfit, buildWrite_eq_encodeBytes hport]
  refine ⟨_, rfl, fun hframe => ?_⟩
  have hunits := layUart_units (code := .write) (port := port.setWidth 4) (layPairs_units data)
  have hreplay : extractReplay (encodeBytes (.uartWrite (port.setWidth 4) data)) = data :=
    (extractReplay_layFrame (units_no_marker hunits).1).trans (joinPairs_layPairs data)
  rw [exec_extractReplay_of_fits hframe, hreplay]

/-- A stream holds four bytes beside the units of its data areas wherever it holds a unit: a data area's frame has two markers
and two bytes that are skipped. -/
theorem dataUnits_length_le (frames : List (List Byte × List Byte)) (tail : List Byte) :
    (dataUnits frames).length ≤ (stream frames tail).length - 4 := by
  induction frames with
  | nil => exact Nat.zero_le _
  | cons frame frames ih =>
    obtain ⟨gap, body⟩ := frame
    simp
    omega

/-- The output is at most half of what four fixed bytes leave, the subtraction ending at 0 (R186 c). -/
theorem extractReplay_length_le (raw : List Byte) : (extractReplay raw).length ≤ (raw.length - 4) / 2 := by
  obtain ⟨frames, tail, rfl, hparts⟩ := exists_stream raw
  rw [extractReplay_stream hparts, joinPairs_length]
  exact Nat.div_le_div_right (dataUnits_length_le frames tail)

/-- Settles O32: the bound holds at every length, and below four bytes it is 0. -/
theorem replayOutputIsBounded : Obligations.ReplayOutputIsBounded := by
  intro raw
  have hbound := extractReplay_length_le raw
  exact ⟨fun _ => hbound, fun hshort => List.length_eq_zero_iff.mp (by omega)⟩

end Sys2Proof.Proofs

/-! ## The HandshakeParser operations (R200, R201; log 13)

With the unit there, a message that is absent or within the limit is answered by the operation's function, so each statement is
a reading of that function's outcomes. -/

namespace Sys2Proof.Proofs

open Machine Laws Claims

section Present

variable {s : State} {msg : Option (List Byte)} (hunit : s.params.hasHsp = true)
  (hfit : ∀ m, msg = some m → fits s.params m = true)

include hunit hfit

/-- With the unit, EXTRACT_NAME on an absent or accepted message responds with its function's outcome. -/
theorem exec_extractName_of_fits (startIndex : Value) :
    exec (.extractName startIndex msg) s = respond s (extractName startIndex.toNat msg) nameResult :=
  (needHsp_of_present hunit).trans (acceptMsg_of_fits hfit)

/-- With the unit, EXTRACT_VERSION on an absent or accepted message responds with its function's outcome. -/
theorem exec_extractVersion_of_fits : exec (.extractVersion msg) s = respond s (extractVersion msg) pairResult :=
  (needHsp_of_present hunit).trans (acceptMsg_of_fits hfit)

end Present

/-- An absent message meets the length check, as there is nothing to check (R9, decision D18). -/
theorem fits_of_absent {p : Config.Params} (m : List Byte) (h : none = some m) : fits p m = true := nomatch h

/-- A message within the limit meets the length check as the optional operand it is passed as (R9). -/
theorem fits_of_present {p : Config.Params} {m : List Byte} (h : fits p m = true) (m' : List Byte) (hm : some m = some m') :
    fits p m' = true :=
  Option.some.inj hm ▸ h

/-- Settles O33: each shape of the message gives its outcome, and the codes of a name are those of its pairs. -/
theorem extractNameGivesCodesOfPairs : Obligations.ExtractNameGivesCodesOfPairs := by
  intro startIndex s hunit
  refine ⟨exec_extractName_of_fits hunit fits_of_absent startIndex, fun m hfit => ?_⟩
  rw [exec_extractName_of_fits hunit (fits_of_present hfit) startIndex]
  refine ⟨fun hnone => congrArg (respond s · nameResult) (extractName_absent hnone), fun hpairs => ?_⟩
  exact ⟨_, congrArg (respond s · nameResult) (extractName_pairs hpairs), namesPairs_nameCodes _⟩

/-- EXTRACT_VERSION of a message of fewer than 3 bytes (R201). -/
theorem extractVersion_short {m : List Byte} (h : m.length < 3) : extractVersion (some m) = .absent := by
  match m, h with
  | [], _ | [_], _ | [_, _], _ => rfl
  | _ :: _ :: _ :: _, h => simp only [List.length_cons] at h; omega

/-- EXTRACT_VERSION of any other message answers its bytes 1 and 2 (R201). -/
theorem extractVersion_bytes {m : List Byte} {major minorRaw : Byte} (h1 : m[1]? = some major) (h2 : m[2]? = some minorRaw) :
    extractVersion (some m) = .ok (major, minorRaw) := by
  match m, h1, h2 with
  | _ :: _ :: _ :: _, rfl, rfl => rfl

/-- Settles O34: a message has bytes 1 and 2, or is shorter than 3. -/
theorem extractVersionGivesTwoBytes : Obligations.ExtractVersionGivesTwoBytes := by
  intro s hunit
  refine ⟨exec_extractVersion_of_fits hunit fits_of_absent, fun m hfit => ?_⟩
  rw [exec_extractVersion_of_fits hunit (fits_of_present hfit)]
  exact ⟨fun hshort => congrArg (respond s · pairResult) (extractVersion_short hshort),
    fun _ _ h1 h2 => congrArg (respond s · pairResult) (extractVersion_bytes h1 h2)⟩

end Sys2Proof.Proofs

/-! ## What the next request sees, and which status it is answered with (R220 to R231)

An earlier transaction leaves a response on the ports and nothing else, and no instruction reads the response
(`exec_withResponse`). The status of an operation is that of its function's outcome, or IllegalOp where its unit is absent
(`gated_next`), so R220's table is the table of the functions' outcomes. -/

namespace Sys2Proof.Proofs

open Machine Laws Claims

/-- No instruction reads the response that stands on the ports (R20). -/
theorem exec_withResponse (i : Instr) (s : State) (r : Response) : exec i (s.withResponse r) = exec i s := by
  obtain ⟨r', -, hexec⟩ := exec_eq_gated_responseOk i
  rw [hexec, hexec]
  rcases gated_cases i s.params with hrun | hillegal | hrefused
  · exact (hrun (s.withResponse r) rfl _).trans (hrun s rfl _).symm
  · exact (hillegal (s.withResponse r) rfl _).trans (hillegal s rfl _).symm
  · exact (hrefused (s.withResponse r) rfl _).trans (hrefused s rfl _).symm

/-- Settles O43: what the first step leaves is a response, which the next request's instruction does not read. -/
theorem nextRequestServedLikeAnyOther : Obligations.NextRequestServedLikeAnyOther := by
  intro s t q ch h
  obtain ⟨r, -, rfl, -⟩ := exec_next h
  exact exec_withResponse (presented ch q) { s with request := q, channel := ch } r

/-- The status that reports an outcome (R25, R220). -/
def outcomeStatus {α : Type} (x : Answer α) : Status :=
  match x with
  | .ok _ => .ok
  | .absent => .none
  | .error e => e.status

/-- An input that passed the length check ran. -/
theorem acceptMsg_next {s t : State} {msg : Option (List Byte)} {run : Host.Outcome State Fault Refusal}
    (h : acceptMsg s msg run = .next t) : run = .next t := by
  cases msg with
  | none => exact h
  | some m => exact (accept_next h).2

/-- A gated run that gives a next state is IllegalOp of the absent unit, or the run itself with its unit present (R80, R225). -/
theorem gated_next {i : Instr} {s t : State} {run : Host.Outcome State Fault Refusal} (h : gated i s run = .next t) :
    (ofHandshakeParser i = true ∧ s.params.hasHsp = false ∧ t = s.withResponse (bareResponse .illegalOp)) ∨
      ((ofHandshakeParser i = true → s.params.hasHsp = true) ∧ run = .next t) := by
  rw [gated] at h
  split at h
  case isTrue hunit =>
    rcases needHsp_next h with ⟨hpresent, hrun⟩ | ⟨habsent, ht⟩
    · exact .inr ⟨fun _ => hpresent, acceptMsg_next hrun⟩
    · exact .inl ⟨hunit, habsent, ht⟩
  case isFalse hunit => exact .inr ⟨fun h' => absurd h' hunit, acceptMsg_next h⟩

section Status

variable {α : Type} {x : Answer α} {result : α → Response} {i : Instr} {s t : State} {r : Response}

/-- The response to an outcome carries the outcome's status, where its results are reported as OK. -/
theorem respond_status (hok : ∀ v, (result v).status = .ok) (h : respond s x result = .next t)
    (hr : t.response = some r) : r.status = outcomeStatus x := by
  cases x with
  | ok v => cases h; cases hr; exact hok v
  | absent => cases h; cases hr; rfl
  | error e => cases h; cases hr; rfl

/-- An operation of a unit that is always there reports its function's outcome. -/
theorem exec_status (hok : ∀ v, (result v).status = .ok) (hunit : ofHandshakeParser i = false)
    (hexec : exec i s = gated i s (respond s x result)) (h : exec i s = .next t) (hr : t.response = some r) :
    r.status = outcomeStatus x := by
  rcases gated_next (hexec.symm.trans h) with ⟨hparser, -, -⟩ | ⟨-, hrun⟩
  · cases hunit.symm.trans hparser
  · exact respond_status hok hrun hr

/-- An operation of the optional unit reports its function's outcome, or IllegalOp without the unit (R80, R225). -/
theorem exec_status_of_optional (hok : ∀ v, (result v).status = .ok) (hunit : ofHandshakeParser i = true)
    (hexec : exec i s = gated i s (respond s x result)) (h : exec i s = .next t) (hr : t.response = some r) :
    r.status = if s.params.hasHsp then outcomeStatus x else .illegalOp := by
  rcases gated_next (hexec.symm.trans h) with ⟨-, habsent, rfl⟩ | ⟨hpresent, hrun⟩
  · cases hr
    rw [habsent]
    rfl
  · rw [if_pos (hpresent hunit)]
    exact respond_status hok hrun hr

/-- An outcome that is a result on legal operands and one error on all others. -/
theorem outcomeStatus_of_legal_or_error {c : Prop} [Decidable c] {e : Error} (hlegal : c → ∃ v, x = .ok v)
    (hillegal : ¬c → x = .error e) : outcomeStatus x = if c then .ok else e.status := by
  split
  case isTrue h =>
    obtain ⟨v, rfl⟩ := hlegal h
    rfl
  case isFalse h =>
    rw [hillegal h]
    rfl

end Status

/-! The rows of R220's table, each as the status of its function's outcome. -/

theorem outcomeStatus_extractBits (value startBit endBit : Nat) :
    outcomeStatus (extractBits value startBit endBit) =
      if startBit ≤ endBit ∧ endBit - startBit ≤ 7 then .ok else .rangeError :=
  outcomeStatus_of_legal_or_error (e := .rangeError)
    (fun ⟨hordered, hnarrow⟩ => ⟨_, extractBits_legal hordered (by omega)⟩)
    (fun hrange => extractBits_illegal (by omega))

theorem outcomeStatus_splitWord (v : Value) (n : Nat) :
    outcomeStatus (splitWord v n) = if n = 7 ∨ n = 14 ∨ n = 21 then .ok else .illegalOp :=
  outcomeStatus_of_legal_or_error (e := .illegalOp) (fun hwidth => ⟨_, splitWord_legal v hwidth⟩) (splitWord_illegal v)

theorem outcomeStatus_frame (p : List Byte) :
    outcomeStatus (frame p) = if ∀ b ∈ p, b.toNat < 0x80 then .ok else .formatError :=
  outcomeStatus_of_legal_or_error (e := .formatError) (fun hunits => ⟨_, frame_of_units hunits⟩)
    (fun hhigh => frame_of_high (by simpa using hhigh))

theorem outcomeStatus_frameWithCode (p : List Byte) (code : Byte) :
    outcomeStatus (frameWithCode p code) =
      if code.toNat < 0x80 ∧ ∀ b ∈ p, b.toNat < 0x80 then .ok else .formatError := by
  rw [frameWithCode, outcomeStatus_frame]
  simp only [List.forall_mem_cons]

/-- A frame's markers stand in a buffer that holds it. -/
theorem markers_of_frame (pre p post : List Byte) :
    ∃ i j : Nat, i < j ∧
      (pre ++ Config.startMarker :: (p ++ Config.endMarker :: post))[i]? = some Config.startMarker ∧
      (pre ++ Config.startMarker :: (p ++ Config.endMarker :: post))[j]? = some Config.endMarker :=
  ⟨pre.length, pre.length + (p.length + 1), by omega, by simp, by simp⟩

theorem outcomeStatus_extractFirst (raw : List Byte) :
    (outcomeStatus (extractFirst raw) = .ok ∧ ∃ i j : Nat, i < j ∧ raw[i]? = some 0xF0#8 ∧ raw[j]? = some 0xF7#8) ∨
    (outcomeStatus (extractFirst raw) = .none ∧
      ¬∃ i j : Nat, i < j ∧ raw[i]? = some 0xF0#8 ∧ raw[j]? = some 0xF7#8) := by
  rcases extractFirst_cases raw with ⟨pre, p, post, rfl, -, -, hok⟩ | ⟨hnone, habsent⟩
  · exact .inl ⟨congrArg outcomeStatus hok, markers_of_frame pre p post⟩
  · exact .inr ⟨congrArg outcomeStatus habsent, fun ⟨i, j, hij, hi, hj⟩ => hnone i j hij hi hj⟩

theorem outcomeStatus_makeCode (code port : Byte) :
    outcomeStatus (makeCode code port) = if code.toNat % 16 = 0 ∧ port.toNat < 16 then .ok else .formatError :=
  outcomeStatus_of_legal_or_error (e := .formatError) (fun ⟨hcode, hport⟩ => ⟨_, makeCode_legal hcode hport⟩)
    makeCode_illegal

theorem outcomeStatus_buildInit (port : Byte) (baud : Value) :
    outcomeStatus (buildInit port baud) = if baud.toNat < 2 ^ 31 ∧ port.toNat < 16 then .ok else .formatError :=
  outcomeStatus_of_legal_or_error (e := .formatError) (fun ⟨hbaud, hport⟩ => ⟨_, buildInit_legal hbaud hport⟩)
    buildInit_illegal

theorem outcomeStatus_buildArmRead (port : Byte) (n : BitVec 16) :
    outcomeStatus (buildArmRead port n) = if n.toNat < 0x4000 ∧ port.toNat < 16 then .ok else .formatError :=
  outcomeStatus_of_legal_or_error (e := .formatError) (fun ⟨hn, hport⟩ => ⟨_, buildArmRead_legal hn hport⟩)
    buildArmRead_illegal

theorem outcomeStatus_buildWrite (port : Byte) (data : List Byte) :
    outcomeStatus (buildWrite port data) = if port.toNat < 16 then .ok else .formatError :=
  outcomeStatus_of_legal_or_error (e := .formatError) (fun hport => ⟨_, buildWrite_legal hport data⟩)
    (fun hport => buildCommand_illegal (Nat.le_of_not_lt hport))

theorem outcomeStatus_buildFlush (port : Byte) :
    outcomeStatus (buildFlush port) = if port.toNat < 16 then .ok else .formatError :=
  outcomeStatus_of_legal_or_error (e := .formatError) (fun hport => ⟨_, buildFlush_legal hport⟩)
    (fun hport => buildCommand_illegal (Nat.le_of_not_lt hport))

theorem outcomeStatus_extractName (k : Nat) (m : List Byte) :
    outcomeStatus (extractName k (some m)) = if m.length < k ∨ (m.length - k) % 2 = 1 then .none else .ok := by
  split
  case isTrue hnone => rw [extractName_absent hnone]; rfl
  case isFalse hpairs => rw [extractName_pairs hpairs]; rfl

theorem outcomeStatus_extractVersion (m : List Byte) :
    outcomeStatus (extractVersion (some m)) = if m.length < 3 then .none else .ok := by
  split
  case isTrue hshort => rw [extractVersion_short hshort]; rfl
  case isFalse hlong =>
    have h1 : m[1]? = some m[1] := List.getElem?_eq_getElem (by omega)
    have h2 : m[2]? = some m[2] := List.getElem?_eq_getElem (by omega)
    rw [extractVersion_bytes h1 h2]
    rfl

/-- Settles O47: an operation's status is that of its function's outcome, which is the row of the table. -/
theorem statusFollowsOutcomeTable : Obligations.StatusFollowsOutcomeTable := by
  intro i s t r h hr
  cases i with
  | extractBits value startBit endBit =>
    exact (exec_status (fun _ => rfl) rfl rfl h hr).trans (outcomeStatus_extractBits ..)
  | splitByte b =>
    exact (exec_status (x := splitByte b) (result := pairResult) (fun _ => rfl) rfl rfl h hr).trans
      (congrArg outcomeStatus (splitByte_eq b))
  | splitWord v w => exact (exec_status (fun _ => rfl) rfl rfl h hr).trans (outcomeStatus_splitWord ..)
  | joinPair l h1 =>
    exact exec_status (x := .ok (joinPair l h1)) (result := byteResult) (fun _ => rfl) rfl rfl h hr
  | joinPairWord l h7 =>
    exact (exec_status (x := joinPairWord l h7) (result := wordResult) (fun _ => rfl) rfl rfl h hr).trans
      (congrArg outcomeStatus (joinPairWord_eq l h7))
  | frame payload => exact (exec_status (fun _ => rfl) rfl rfl h hr).trans (outcomeStatus_frame payload)
  | frameWithCode payload code =>
    exact (exec_status (fun _ => rfl) rfl rfl h hr).trans (outcomeStatus_frameWithCode payload code)
  | extractFirst raw =>
    have hst : r.status = outcomeStatus (extractFirst raw) := exec_status (fun _ => rfl) rfl rfl h hr
    exact hst ▸ outcomeStatus_extractFirst raw
  | makeCode code port => exact (exec_status (fun _ => rfl) rfl rfl h hr).trans (outcomeStatus_makeCode code port)
  | buildInit port baud => exact (exec_status (fun _ => rfl) rfl rfl h hr).trans (outcomeStatus_buildInit port baud)
  | buildArmRead port n => exact (exec_status (fun _ => rfl) rfl rfl h hr).trans (outcomeStatus_buildArmRead port n)
  | buildWrite port data => exact (exec_status (fun _ => rfl) rfl rfl h hr).trans (outcomeStatus_buildWrite port data)
  | buildFlush port => exact (exec_status (fun _ => rfl) rfl rfl h hr).trans (outcomeStatus_buildFlush port)
  | extractReplay raw =>
    exact exec_status (x := .ok (extractReplay raw)) (result := seqResult) (fun _ => rfl) rfl rfl h hr
  | extractName startIndex msg =>
    have hst := exec_status_of_optional (x := extractName startIndex.toNat msg) (fun _ => rfl) rfl rfl h hr
    cases msg with
    | none => exact hst
    | some m =>
      exact hst.trans (congrArg (if s.params.hasHsp then · else .illegalOp) (outcomeStatus_extractName _ m))
  | extractVersion msg =>
    have hst := exec_status_of_optional (x := extractVersion msg) (fun _ => rfl) rfl rfl h hr
    cases msg with
    | none => exact hst
    | some m =>
      exact hst.trans (congrArg (if s.params.hasHsp then · else .illegalOp) (outcomeStatus_extractVersion m))
  | wireFrame | uartCommand | uartInit | uartReadArm | uartWrite | uartFlush | replayFrame | handshakeMsg => trivial

/-- Settles O48: the five statuses, each with its code (decision D4). -/
theorem statusCodesAreAssigned : Obligations.StatusCodesAreAssigned := by
  refine ⟨rfl, rfl, rfl, rfl, rfl, fun st => ?_⟩
  cases st <;> decide

end Sys2Proof.Proofs
